-- ==== Sys2Proof/Word.lean ====
section
/-! DEFINITION. The widths of 00_scope.md R13 as bit vectors. -/

namespace Sys2Proof

/-- A nibble: 4 bits (00_scope.md R13). -/
abbrev Nibble := BitVec 4

/-- A wire byte, unit, codeword or field of a slot: 8 bits (00_scope.md R13). -/
abbrev Byte := BitVec 8

/-- A bus word of the wider kind, and the width of `COUNTER`: 16 bits (00_scope.md R13). -/
abbrev Word := BitVec 16

end Sys2Proof
end

