-- ==== Sys2Proof/Config.lean ====
section
/-! DEFINITION. What an implementation fixes (the named parameters of 00_scope.md R9 to R12), the two frame overheads
of R11, the environment's inputs, and the free values of the model (constants without a body). -/

namespace Sys2Proof

/-- The two code matrices (00_scope.md R10, 40_ecc_codec.md R122): `p0` to `p3` are the rows `ECC_P[0..3]`, row `i` the
parity contribution of data bit `i`; `h0` to `h7` are the rows `ECC_H[0..7]`, row `j` the syndrome contribution of codeword
bit `j`. Their constraints K1 and K2 are `EccMatrices.k1` and `EccMatrices.k2` of Machine/Codec.lean. -/
structure EccMatrices where
  p0 : Nibble
  p1 : Nibble
  p2 : Nibble
  p3 : Nibble
  h0 : Nibble
  h1 : Nibble
  h2 : Nibble
  h3 : Nibble
  h4 : Nibble
  h5 : Nibble
  h6 : Nibble
  h7 : Nibble
  deriving DecidableEq, Repr

/-- The rows of `ECC_P`, row 0 first. -/
def EccMatrices.pRows (m : EccMatrices) : List Nibble := [m.p0, m.p1, m.p2, m.p3]

/-- The rows of `ECC_H`, row 0 first. -/
def EccMatrices.hRows (m : EccMatrices) : List Nibble := [m.h0, m.h1, m.h2, m.h3, m.h4, m.h5, m.h6, m.h7]

/-- The default matrices of 00_scope.md R10. -/
def EccMatrices.defaults : EccMatrices :=
  { p0 := 0xE, p1 := 0xD, p2 := 0xB, p3 := 0x7,
    h0 := 0xE, h1 := 0xD, h2 := 0xB, h3 := 0x7, h4 := 0x1, h5 := 0x2, h6 := 0x4, h7 := 0x8 }

/-- The named parameters of the engine (00_scope.md R9 to R12). They are fixed for one machine: State carries them in
`cfg` and no step writes it (log entry 2, DESIGN CHOICE), so a statement about every state quantifies over them. -/
structure Config where
  /-- `MAX_PAYLOAD`, R9. -/
  maxPayload : Nat
  /-- `ECC_P` and `ECC_H`, R10. -/
  ecc : EccMatrices
  /-- `PREAMBLE`, R11. -/
  preamble : Byte
  /-- `SYNC0`, R11. -/
  sync0 : Byte
  /-- `SYNC1`, R11. -/
  sync1 : Byte
  /-- `PAT_ZERO`, R11. -/
  patZero : Byte
  /-- `PAT_ONE`, R11. -/
  patOne : Byte
  /-- `PAT_ALT`, R11. -/
  patAlt : Byte
  /-- `UNIT_READ_CMD`, R12. -/
  unitReadCmd : Word
  /-- `UNIT_WRITE_CMD`, R12. -/
  unitWriteCmd : Word
  /-- `SEQ_FIFO_RESET`, R12. -/
  seqFifoReset : List Word
  /-- `SEQ_TX_ENABLE`, R12. -/
  seqTxEnable : List Word
  /-- `SEQ_TX_DISABLE`, R12. -/
  seqTxDisable : List Word
  /-- `SEQ_RX_ENABLE`, R12. -/
  seqRxEnable : List Word
  /-- `SEQ_HW_RESET`, R12. -/
  seqHwReset : List Word
  /-- `FREQ_CMD`, R12. -/
  freqCmd : Word
  /-- `FREQ_MIN`, R12. -/
  freqMin : Word
  /-- `FREQ_MAX`, R12. -/
  freqMax : Word
  deriving DecidableEq, Repr

/-- The default parameter values of 00_scope.md R9 to R12, those of every test vector. -/
def Config.defaults : Config :=
  { maxPayload := 64
    ecc := EccMatrices.defaults
    preamble := 0xAA, sync0 := 0x2D, sync1 := 0xD4
    patZero := 0x00, patOne := 0xFF, patAlt := 0xAA
    unitReadCmd := 0xB000, unitWriteCmd := 0xB800
    seqFifoReset := [0xCA81, 0xCA83]
    seqTxEnable := [0x8239], seqTxDisable := [0x8209], seqRxEnable := [0x82D9]
    seqHwReset := [0xFE00, 0x82D9, 0xCA81, 0xCA83]
    freqCmd := 0xA000, freqMin := 96, freqMax := 3903 }

/-- `RX_OVERHEAD` (00_scope.md R11): the length byte and the type byte. -/
def rxOverhead : Nat := 2

/-- `TX_OVERHEAD` (00_scope.md R11): preamble, two sync bytes, length byte, type byte. -/
def txOverhead : Nat := 5

/-- One thing the environment does (60_exceptions.md R268, 20_memory.md R74): raise the trigger, give the handler its turn,
give the foreground sequencer its turn, present an operation on the host command port (the operation code and the operand
bytes, Decode.lean), or drive one of the combinational codec ports (10_state.md R36). Log entries 4 and 21. -/
inductive Input where
  /-- The peer raises the FIFO trigger (60_exceptions.md R253). -/
  | trigger
  /-- The handler's turn (60_exceptions.md R254). -/
  | handler
  /-- The foreground sequencer's turn (45_host_operations.md R221). -/
  | foreground
  /-- The host presents an operation on the command port (45_host_operations.md R220). -/
  | host (bytes : List Byte)
  /-- The host drives the `ENC` port (10_state.md R36, 45_host_operations.md R238). -/
  | encPort (v : Nibble)
  /-- The host drives the `DEC` port (10_state.md R36). -/
  | decPort (c : Byte)
  deriving DecidableEq, Repr, Inhabited

/-- FREE VALUE: what the environment does next when the list of inputs is empty (20_memory.md R74, R67: not determined;
log entry 4). -/
opaque Config.freeInput : Nat → Input

/-- FREE VALUE: the peer's answer to a transaction when the list of responses is empty (20_memory.md R67, 93 U2: any value;
log entry 5). -/
opaque Config.freeResponse : Nat → Word

/-- FREE VALUE: `TXBYTE(c)` outside `0 <= c < end`, where 44_transmit_framer_test.md R202 states no value (log entry 15). -/
opaque Config.freeTxByte : Nat → Byte

end Sys2Proof
end

