-- ==== Sys2Proof/Syntax.lean ====
section
/-! DEFINITION. The operations of the engine: one constructor of `Instr` for each row of spec/opcode_table.json
(30_encoding.md R97, R98, R99, R105). -/

namespace Sys2Proof

/-- The index of a receive slot, one bit (10_state.md R23, R24). -/
inductive SlotIx where
  | slot0
  | slot1
  deriving DecidableEq, Repr, Inhabited

/-- `1 - f` of 42_buffer_manager.md R163. -/
def SlotIx.other : SlotIx → SlotIx
  | .slot0 => .slot1
  | .slot1 => .slot0

/-- A packet value: `size`, `type` and `payload[0..MAX_PAYLOAD-1]` (10_state.md R23, 30_encoding.md R97). -/
structure Packet where
  size : Byte
  type : Byte
  payload : List Byte
  deriving DecidableEq, Repr, Inhabited

/-- The five formats of spec/opcode_table.json (30_encoding.md R105). -/
inductive Format where
  /-- Host operations, 8-bit `op` (R97). -/
  | H
  /-- Trigger dispatch, 3-bit `STATE` code and a condition (R98). -/
  | T
  /-- Bus primitives, 1-bit width and a use (R99). -/
  | B
  /-- Foreground micro-operations, 1 bit (R99). -/
  | M
  /-- Internal operations, a row number (R105). -/
  | I
  deriving DecidableEq, Repr

/-- The operations, in the table's order. -/
inductive Instr where
  -- format H
  | encodeNibble (v : Nibble)
  | decodeNibble (c : Byte)
  | submit (p : Packet)
  | pollReceived
  | isIdle
  | liveness
  | reset
  | enterTestMode (m : BitVec 2)
  | setRegister (w : Word)
  | setFrequency (v : Word)
  | peek (slot : SlotIx) (offset : Word)
  -- format T
  | tIdleStart
  | tIdleFramingError
  | tRxType
  | tRxDataRaw
  | tRxDataEcc
  | tTxEmit
  | tTxFinish
  | tTestZero
  | tTestOne
  | tTestAlt
  -- format B
  | xfer8 (out : Byte)
  | xfer16 (out : Word)
  | write8 (out : Byte)
  | write16 (out : Word)
  | read8
  | read16
  -- format M
  | w (word : Word)
  | claim (p : Packet)
  -- format I
  | enc (v : Nibble)
  | syn (c : Byte)
  | errpos (syndrome : Nibble)
  | dec (c : Byte)
  | unitRead
  | unitWrite (b : Byte)
  | seq (words : List Word)
  | clearActive (len : Byte)
  | post
  | take
  | loadStaging (p : Packet)
  | rxComplete
  | txbyte (c : Word)
  deriving DecidableEq, Repr

/-- The format of an operation's row. -/
def Instr.format : Instr → Format
  | .encodeNibble _ | .decodeNibble _ | .submit _ | .pollReceived | .isIdle | .liveness | .reset
  | .enterTestMode _ | .setRegister _ | .setFrequency _ | .peek _ _ => .H
  | .tIdleStart | .tIdleFramingError | .tRxType | .tRxDataRaw | .tRxDataEcc | .tTxEmit | .tTxFinish
  | .tTestZero | .tTestOne | .tTestAlt => .T
  | .xfer8 _ | .xfer16 _ | .write8 _ | .write16 _ | .read8 | .read16 => .B
  | .w _ | .claim _ => .M
  | .enc _ | .syn _ | .errpos _ | .dec _ | .unitRead | .unitWrite _ | .seq _ | .clearActive _ | .post | .take
  | .loadStaging _ | .rxComplete | .txbyte _ => .I

end Sys2Proof
end

