-- ==== Sys2Proof/WellFormed.lean ====
section
/-! DEFINITION. The shape checks on operands that a field's type does not make. -/

namespace Sys2Proof

/-- A packet operand holds `payload[0..MAX_PAYLOAD-1]` (30_encoding.md R97). -/
def Packet.wellFormed (maxPayload : Nat) (p : Packet) : Bool := p.payload.length == maxPayload

/-- The well-formed operations of an engine with the given `MAX_PAYLOAD`. A list operand of `SEQ` has at most 255 words,
the most its encoding in this model can count (log entry 24). -/
def Instr.wellFormed (maxPayload : Nat) : Instr → Bool
  | .submit p => p.wellFormed maxPayload
  | .claim p => p.wellFormed maxPayload
  | .loadStaging p => p.wellFormed maxPayload
  | .seq ws => decide (ws.length < 256)
  | .encodeNibble _ | .decodeNibble _ | .pollReceived | .isIdle | .liveness | .reset | .enterTestMode _
  | .setRegister _ | .setFrequency _ | .peek _ _ | .tIdleStart | .tIdleFramingError | .tRxType | .tRxDataRaw
  | .tRxDataEcc | .tTxEmit | .tTxFinish | .tTestZero | .tTestOne | .tTestAlt | .xfer8 _ | .xfer16 _ | .write8 _
  | .write16 _ | .read8 | .read16 | .w _ | .enc _ | .syn _ | .errpos _ | .dec _ | .unitRead | .unitWrite _
  | .clearActive _ | .post | .take | .rxComplete | .txbyte _ => true

end Sys2Proof
end

