-- ==== Sys2Proof/Decode.lean ====
section
/-! DEFINITION. The decoder of each format of spec/opcode_table.json, total on every list of bytes and rejecting by name;
after it the encoder. A format is its own space of words (30_encoding.md R105): format H is what the host presents on the
command port (R97), format T is the `STATE` code with the condition of R98, formats B, M and I index the rules of R99 and
the operations invoked by name. Log entries 9 and 10 (DESIGN CHOICE) say how operands and conditions are laid out. -/

namespace Sys2Proof

/-- Why a list of bytes is no operation of a format. -/
inductive DecodeError where
  /-- No byte at all. -/
  | noKey
  /-- Format H: an `op` that is not in 30_encoding.md R97. -/
  | unknownOp (op : Byte)
  /-- Formats T, B, M, I: a key that no row has. -/
  | unknownKey (format : Format) (key : Byte)
  /-- Fewer operand bytes than the operation has. -/
  | operandsMissing
  /-- A bit set above an operand's width. -/
  | operandTooWide
  deriving DecidableEq, Repr

/-- What a decoder answers: an operation and the bytes after it, or a named rejection. -/
abbrev Decoded := Except DecodeError (Instr × List Byte)

/-- The 16-bit value of two bytes, high byte first (log entry 9). -/
def wordOfBytes (hi lo : Byte) : Word := hi ++ lo

/-- The high byte of a word (bits 15:8). -/
def hiByte (w : Word) : Byte := w.extractLsb' 8 8

/-- The low byte of a word (bits 7:0). -/
def loByte (w : Word) : Byte := w.extractLsb' 0 8

/-- The code of a slot index (10_state.md R24). -/
def SlotIx.code : SlotIx → Byte
  | .slot0 => 0
  | .slot1 => 1

/-- An operation with one operand of 8 bits. -/
def byteOperand (mk : Byte → Instr) : List Byte → Decoded
  | b :: r => .ok (mk b, r)
  | [] => .error .operandsMissing

/-- An operation with one operand of 4 bits, in bits 3:0 of one byte. -/
def nibbleOperand (mk : Nibble → Instr) : List Byte → Decoded
  | b :: r => if b.toNat < 16 then .ok (mk (b.setWidth 4), r) else .error .operandTooWide
  | [] => .error .operandsMissing

/-- An operation with one operand of 2 bits, in bits 1:0 of one byte. -/
def modeOperand (mk : BitVec 2 → Instr) : List Byte → Decoded
  | b :: r => if b.toNat < 4 then .ok (mk (b.setWidth 2), r) else .error .operandTooWide
  | [] => .error .operandsMissing

/-- An operation with one operand of 16 bits, high byte first. -/
def wordOperand (mk : Word → Instr) : List Byte → Decoded
  | hi :: lo :: r => .ok (mk (wordOfBytes hi lo), r)
  | _ => .error .operandsMissing

/-- An operation with a slot (1 bit, in bit 0 of one byte) and an offset of 16 bits. -/
def slotOperands (mk : SlotIx → Word → Instr) : List Byte → Decoded
  | b :: hi :: lo :: r =>
    if b = 0#8 then .ok (mk .slot0 (wordOfBytes hi lo), r)
    else if b = 1#8 then .ok (mk .slot1 (wordOfBytes hi lo), r)
    else .error .operandTooWide
  | _ => .error .operandsMissing

/-- An operation with a packet: size, type, then `MAX_PAYLOAD` payload bytes in increasing index order. -/
def packetOperand (maxPayload : Nat) (mk : Packet → Instr) : List Byte → Decoded
  | size :: type :: r =>
    if maxPayload ≤ r.length then
      .ok (mk { size := size, type := type, payload := r.take maxPayload }, r.drop maxPayload)
    else .error .operandsMissing
  | _ => .error .operandsMissing

/-- `n` words, high byte first, and the bytes after them. -/
def takeWords : Nat → List Byte → Option (List Word × List Byte)
  | 0, r => some ([], r)
  | n + 1, hi :: lo :: r =>
    match takeWords n r with
    | some (ws, r') => some (wordOfBytes hi lo :: ws, r')
    | none => none
  | _ + 1, _ => none

/-- An operation with a list of words: how many, then the words. -/
def wordsOperand (mk : List Word → Instr) : List Byte → Decoded
  | n :: r =>
    match takeWords n.toNat r with
    | some (ws, r') => .ok (mk ws, r')
    | none => .error .operandsMissing
  | [] => .error .operandsMissing

/-- Format H (30_encoding.md R97): the operation code, then the operands. -/
def decodeH (maxPayload : Nat) (op : Byte) (r : List Byte) : Decoded :=
  match op.toNat with
  | 0x01 => nibbleOperand .encodeNibble r
  | 0x02 => byteOperand .decodeNibble r
  | 0x10 => packetOperand maxPayload .submit r
  | 0x11 => .ok (.pollReceived, r)
  | 0x12 => .ok (.isIdle, r)
  | 0x13 => .ok (.liveness, r)
  | 0x14 => .ok (.reset, r)
  | 0x15 => modeOperand .enterTestMode r
  | 0x16 => wordOperand .setRegister r
  | 0x17 => wordOperand .setFrequency r
  | 0x18 => slotOperands .peek r
  | _ => .error (.unknownOp op)

/-- Format T (30_encoding.md R98): bits 2:0 the `STATE` code, bits 4:3 the further condition of the row (log entry 10): in
`Idle` 0 an invalid and 1 a valid length byte; in `Receiving` 0 `COUNTER == 1`, 1 `COUNTER >= 2` with a type that is not
ECC, 2 the same with an ECC type; in `Transmitting` 0 `COUNTER < end`, 1 `COUNTER >= end`. -/
def decodeT (key : Byte) (r : List Byte) : Decoded :=
  match key.toNat with
  | 0x00 => .ok (.tIdleFramingError, r)
  | 0x08 => .ok (.tIdleStart, r)
  | 0x01 => .ok (.tRxType, r)
  | 0x09 => .ok (.tRxDataRaw, r)
  | 0x11 => .ok (.tRxDataEcc, r)
  | 0x02 => .ok (.tTxEmit, r)
  | 0x0A => .ok (.tTxFinish, r)
  | 0x03 => .ok (.tTestZero, r)
  | 0x04 => .ok (.tTestOne, r)
  | 0x05 => .ok (.tTestAlt, r)
  | _ => .error (.unknownKey .T key)

/-- Format B (30_encoding.md R99): bit 0 the width, bits 2:1 the use (log entry 10): 0 full duplex, 1 write, 2 read. -/
def decodeB (key : Byte) (r : List Byte) : Decoded :=
  match key.toNat with
  | 0x00 => byteOperand .xfer8 r
  | 0x01 => wordOperand .xfer16 r
  | 0x02 => byteOperand .write8 r
  | 0x03 => wordOperand .write16 r
  | 0x04 => .ok (.read8, r)
  | 0x05 => .ok (.read16, r)
  | _ => .error (.unknownKey .B key)

/-- Format M (30_encoding.md R99): bit 0 the kind of micro-operation. -/
def decodeM (maxPayload : Nat) (key : Byte) (r : List Byte) : Decoded :=
  match key.toNat with
  | 0x00 => wordOperand .w r
  | 0x01 => packetOperand maxPayload .claim r
  | _ => .error (.unknownKey .M key)

/-- Format I (30_encoding.md R105): bits 4:0 the row number. -/
def decodeI (maxPayload : Nat) (key : Byte) (r : List Byte) : Decoded :=
  match key.toNat with
  | 0x00 => nibbleOperand .enc r
  | 0x01 => byteOperand .syn r
  | 0x02 => nibbleOperand .errpos r
  | 0x03 => byteOperand .dec r
  | 0x04 => .ok (.unitRead, r)
  | 0x05 => byteOperand .unitWrite r
  | 0x06 => wordsOperand .seq r
  | 0x07 => byteOperand .clearActive r
  | 0x08 => .ok (.post, r)
  | 0x09 => .ok (.take, r)
  | 0x0A => packetOperand maxPayload .loadStaging r
  | 0x0B => .ok (.rxComplete, r)
  | 0x0C => wordOperand .txbyte r
  | _ => .error (.unknownKey .I key)

/-- The decoder: the operation a list of bytes stands for in a format, and the bytes after it. -/
def decode (maxPayload : Nat) (f : Format) : List Byte → Decoded
  | [] => .error .noKey
  | key :: r =>
    match f with
    | .H => decodeH maxPayload key r
    | .T => decodeT key r
    | .B => decodeB key r
    | .M => decodeM maxPayload key r
    | .I => decodeI maxPayload key r

/-- A word's two bytes, high byte first. -/
def wordBytes (w : Word) : List Byte := [hiByte w, loByte w]

/-- A packet's bytes: size, type, payload. -/
def packetBytes (p : Packet) : List Byte := p.size :: p.type :: p.payload

/-- The encoder: the bytes of an operation in its own format, from the same tables. -/
def encode : Instr → List Byte
  | .encodeNibble v => [0x01, v.setWidth 8]
  | .decodeNibble c => [0x02, c]
  | .submit p => 0x10 :: packetBytes p
  | .pollReceived => [0x11]
  | .isIdle => [0x12]
  | .liveness => [0x13]
  | .reset => [0x14]
  | .enterTestMode m => [0x15, m.setWidth 8]
  | .setRegister w => 0x16 :: wordBytes w
  | .setFrequency v => 0x17 :: wordBytes v
  | .peek slot offset => 0x18 :: slot.code :: wordBytes offset
  | .tIdleStart => [0x08]
  | .tIdleFramingError => [0x00]
  | .tRxType => [0x01]
  | .tRxDataRaw => [0x09]
  | .tRxDataEcc => [0x11]
  | .tTxEmit => [0x02]
  | .tTxFinish => [0x0A]
  | .tTestZero => [0x03]
  | .tTestOne => [0x04]
  | .tTestAlt => [0x05]
  | .xfer8 out => [0x00, out]
  | .xfer16 out => 0x01 :: wordBytes out
  | .write8 out => [0x02, out]
  | .write16 out => 0x03 :: wordBytes out
  | .read8 => [0x04]
  | .read16 => [0x05]
  | .w word => 0x00 :: wordBytes word
  | .claim p => 0x01 :: packetBytes p
  | .enc v => [0x00, v.setWidth 8]
  | .syn c => [0x01, c]
  | .errpos s => [0x02, s.setWidth 8]
  | .dec c => [0x03, c]
  | .unitRead => [0x04]
  | .unitWrite b => [0x05, b]
  | .seq ws => 0x06 :: BitVec.ofNat 8 ws.length :: ws.flatMap wordBytes
  | .clearActive len => [0x07, len]
  | .post => [0x08]
  | .take => [0x09]
  | .loadStaging p => 0x0A :: packetBytes p
  | .rxComplete => [0x0B]
  | .txbyte c => 0x0C :: wordBytes c

/-- `k` bytes of a number, least significant first: the words of a table row as the host numbers their bits. -/
def bytesOfNat : Nat → Nat → List Byte
  | 0, _ => []
  | k + 1, n => BitVec.ofNat 8 n :: bytesOfNat k (n / 256)

/-- The bytes of an instruction word of `nbits` bits, and zeros up to the longest operation (`SUBMIT`). -/
def tableBytes (maxPayload nbits w : Nat) : List Byte :=
  bytesOfNat ((nbits + 7) / 8) (w % 2 ^ nbits) ++ List.replicate (maxPayload + 3) 0

/-- What a table word stands for (log entry 11, DESIGN CHOICE): a host operation (format H) where the word is an operation
code of 30_encoding.md R97, the only encoding that is bits on a port; otherwise, where the word is one of the `STATE` codes
0, 3, 4, 5 that no operation code takes, the rule of format T with the condition bits zero; otherwise, where it is one of the
row numbers 6 to 12 that no other format has, the operation of format I. -/
def decodeTableBytes (maxPayload : Nat) (bytes : List Byte) : Option Instr :=
  match decode maxPayload .H bytes with
  | .ok (i, _) => some i
  | .error _ =>
    match decode maxPayload (if (bytes.headD 0).toNat < 6 then .T else .I) bytes with
    | .ok (i, _) => some i
    | .error _ => none

/-- The host's reading of an instruction word of spec/opcode_table.json. -/
def decodeTableWord (nbits w : Nat) : Option Instr :=
  decodeTableBytes Config.defaults.maxPayload (tableBytes Config.defaults.maxPayload nbits w)

end Sys2Proof
end

