-- ==== Sys2Proof/Machine/State.lean ====
section
/-! DEFINITION. The state of the link engine (10_state.md R20), the reasons a step can stop, and the state after power-on
reset (70_reset_and_hazards.md R280). -/

namespace Sys2Proof.Machine

open Sys2Proof

/-- The six values of `STATE` (10_state.md R21). Codes 6 and 7, which no rule writes, have no constructor (D8; log entry 12). -/
inductive Mode where
  | idle
  | receiving
  | transmitting
  | testZero
  | testOne
  | testAlternating
  deriving DecidableEq, Repr

/-- The bytes of one address space of 20_memory.md R60, as offset and value pairs in one canonical form (`Memory.wf`):
offsets strictly rising, no listed byte 0. An unlisted offset reads 0, the reset contents of R280. -/
abbrev Memory := List Host.Cell

/-- A foreground micro-operation, an element of `FGQ` (10_state.md R33). -/
inductive Micro where
  /-- `W(w)`: a 16-bit bus write (45_host_operations.md R222). -/
  | w (word : Word)
  /-- `CLAIM(p)`: the admission step of `SUBMIT` (45_host_operations.md R226). -/
  | claim (p : Packet)
  deriving DecidableEq, Repr

/-- The bus shift state of a transaction in flight (10_state.md R34, 41_register_transaction.md R143): its width, the
outgoing word, the bits sampled so far, the number of bits still to clock, and what stood on the pins: the bits driven on `SDO`
so far, whether a pulse of `SCK` is in progress, and how many pulses have ended. -/
structure InFlight where
  width : Nat
  out : Word
  sampled : Word
  remaining : Nat
  driven : List Bool
  sck : Bool
  pulses : Nat
  deriving DecidableEq, Repr

/-- One entry of the output trace: width, outgoing word, response (20_memory.md R68). A word of 8 bits stands in bits 7:0. -/
structure Txn where
  width : Nat
  out : Word
  resp : Word
  deriving DecidableEq, Repr

/-- What an operation returns to its caller (45_host_operations.md R223; log entry 6). -/
inductive Resp where
  /-- No value: an operation without a response, or a refused or ignored one (60_exceptions.md R252). -/
  | nothing
  /-- `IS_IDLE`, `LIVENESS`. -/
  | bit (b : Bool)
  /-- `SYN`. -/
  | nibble (n : Nibble)
  /-- `ENCODE_NIBBLE`, `DECODE_NIBBLE`, `PEEK`, `XFER8`, `READ8`, `ENC`, `DEC`, `UNIT_READ`, `TXBYTE`. -/
  | byte (b : Byte)
  /-- `XFER16`, `READ16`. -/
  | word (w : Word)
  /-- `ERRPOS`: none or a bit position. -/
  | position (j : Option Nat)
  /-- `TAKE`: none or a slot index. -/
  | slot (p : Option SlotIx)
  /-- `POLL_RECEIVED`: none, or a slot index and the packet in it. -/
  | packet (p : Option (SlotIx × Packet))
  deriving DecidableEq, Repr

/-- The state: every item of 10_state.md R20 (the constant tables are hard-wired, log entry 3), the response of the
command port (R36), the output trace (20_memory.md R68), and the model's own fields `cfg`, `inputs`, `responses`, `draws`
(log entries 2, 4, 5, 19). -/
structure State where
  /-- The parameters of 00_scope.md R9 to R12, which no step writes. -/
  cfg : Config
  /-- `STATE` (R21). -/
  mode : Mode
  /-- `COUNTER` (R22). -/
  counter : Word
  /-- `RX[0]` (R23). -/
  rx0 : Memory
  /-- `RX[1]` (R23). -/
  rx1 : Memory
  /-- `ACTIVE` (R24). -/
  active : SlotIx
  /-- `MB_PTR` (R25). -/
  mbPtr : Option SlotIx
  /-- `MB_FLAG` (R26). -/
  mbFlag : Bool
  /-- `TXS` (R27). -/
  txs : Memory
  /-- `BUSY` (R28). -/
  busy : Bool
  /-- `FIRED` (R29). -/
  fired : Bool
  /-- `TRIG_PEND` (R30). -/
  trigPend : Bool
  /-- `FGQ` (R33), head first. -/
  fgq : List Micro
  /-- The bus shift state (R34); `none` is idle, `SEL` deasserted. -/
  inFlight : Option InFlight
  /-- What the last operation that returns to a caller returned (R36, 45_host_operations.md R223). -/
  resp : Resp
  /-- The output trace, oldest first (20_memory.md R68). -/
  trace : List Txn
  /-- What the environment does next, head first; when empty, `Config.freeInput draws`. -/
  inputs : List Input
  /-- What the peer answers next, head first; when empty, `Config.freeResponse draws`. -/
  responses : List Word
  /-- How many free values have been taken. -/
  draws : Nat
  deriving DecidableEq, Repr

/-- Why a step stops with a fault. All but the last are the configurations of 93_implementation_defined.md U3, which no
rule reaches and for which its treatment is `fault` (D32); each is SAFE, since no state reachable from reset has it (log
entry 12). -/
inductive Fault where
  /-- `STATE = Receiving` with `COUNTER = 0`. Raised by `step` and the handler's rules. Safe. -/
  | receivingCounterZero
  /-- `STATE = Receiving` with `RX[ACTIVE].size = 0`. Raised by `step` and the handler's rules. Safe. -/
  | receivingSizeZero
  /-- `STATE = Receiving` with `2 <= COUNTER` not below the frame end. Raised by `step` and the handler's rules. Safe. -/
  | receivingPastEnd
  /-- `STATE` `Idle` or a test state with `COUNTER != 0`. Raised by `step` and the handler's rules. Safe. -/
  | counterOutsideFrame
  /-- `MB_FLAG = 1` with `MB_PTR = none`. Raised by `step`, the handler's rules, `TAKE` and `POLL_RECEIVED`. Safe. -/
  | mailboxWithoutSlot
  /-- `MB_PTR = ACTIVE`. Raised by `step` and the handler's rules. Safe. -/
  | mailboxIsActive
  /-- A `size` field above `MAX_PAYLOAD`. Raised by `step`, the handler's rules and `TXBYTE`. Safe. -/
  | sizeAboveMax
  /-- A handler's rule is called where the dispatch of 30_encoding.md R98 selects another. Raised by the meanings of format
  T only, never by `step`, which runs the rule the dispatch selects. Safe (log entry 16). -/
  | notSelected
  deriving DecidableEq, Repr

/-- Why an operation has no meaning in the model. -/
inductive Refusal where
  /-- An operation of the table without a meaning yet. Raised by `exec` alone; no arm of it does. Safe. -/
  | notModelled (mnemonic : String)
  deriving DecidableEq, Repr

/-- Power-on reset (70_reset_and_hazards.md R280) of an engine with the parameters `cfg`. The environment's lists are empty
and nothing has been returned or drawn yet (log entries 6 and 19, DESIGN CHOICE). -/
def State.resetWith (cfg : Config) : State :=
  { cfg := cfg
    mode := .idle
    counter := 0#16
    rx0 := []
    rx1 := []
    active := .slot0
    mbPtr := none
    mbFlag := false
    txs := []
    busy := false
    fired := false
    trigPend := false
    fgq := []
    inFlight := none
    resp := .nothing
    trace := []
    inputs := []
    responses := []
    draws := 0 }

/-- Power-on reset with the default parameters of 00_scope.md R9 to R12. -/
def State.reset : State := State.resetWith Config.defaults

end Sys2Proof.Machine
end

