-- ==== Sys2Proof/Machine/Codec.lean ====
section
/-! DEFINITION. The ECC codec (40_ecc_codec.md) as functions of the two matrices, its constraints K1 and K2, the two constant
tables, and the constraints on the parameters. -/

namespace Sys2Proof

/-- The bits of a value, bit 0 first. -/
def bitsOf {n : Nat} (v : BitVec n) : List Bool := (List.range n).map v.getLsbD

/-- The exclusive-or of the rows whose bit is set, 0 over none (00_scope.md R14). -/
def xorRows : List Nibble → List Bool → Nibble
  | r :: rs, b :: bs => (if b then r else 0#4) ^^^ xorRows rs bs
  | _, _ => 0#4

namespace EccMatrices

/-- `ENC(v)` (40_ecc_codec.md R123): the parity nibble in bits 7:4, `v` in bits 3:0 (R121). -/
def enc (m : EccMatrices) (v : Nibble) : Byte := (xorRows m.pRows (bitsOf v) ++ v : BitVec 8)

/-- `SYN(c)` (40_ecc_codec.md R124). -/
def syn (m : EccMatrices) (c : Byte) : Nibble := xorRows m.hRows (bitsOf c)

/-- The least position, counted from `j`, of a row equal to `s`. -/
def firstRow (s : Nibble) : Nat → List Nibble → Option Nat
  | _, [] => none
  | j, r :: rs => if r = s then some j else firstRow s (j + 1) rs

/-- `ERRPOS(s)` (40_ecc_codec.md R125). -/
def errPos (m : EccMatrices) (s : Nibble) : Option Nat := firstRow s 0 m.hRows

/-- The corrected nibble of `DEC(c)` (40_ecc_codec.md R126); the best-effort nibble for a syndrome that matches no row is
the received low nibble (log entry 22). -/
def decodeNibble (m : EccMatrices) (c : Byte) : Nibble :=
  if m.syn c = 0#4 then c.setWidth 4
  else
    match m.errPos (m.syn c) with
    | some j => (c ^^^ (1#8 <<< j)).setWidth 4
    | none => c.setWidth 4

/-- `DEC(c)` (40_ecc_codec.md R126): the syndrome in bits 7:4, the nibble in bits 3:0. -/
def dec (m : EccMatrices) (c : Byte) : Byte := (m.syn c ++ m.decodeNibble c : BitVec 8)

/-- K1 of 40_ecc_codec.md R122: every codeword has syndrome zero. -/
def k1 (m : EccMatrices) : Bool :=
  m.h0 == xorRows [m.h4, m.h5, m.h6, m.h7] (bitsOf m.p0) &&
  m.h1 == xorRows [m.h4, m.h5, m.h6, m.h7] (bitsOf m.p1) &&
  m.h2 == xorRows [m.h4, m.h5, m.h6, m.h7] (bitsOf m.p2) &&
  m.h3 == xorRows [m.h4, m.h5, m.h6, m.h7] (bitsOf m.p3)

/-- K2 of 40_ecc_codec.md R122: the rows of `ECC_H` are pairwise different and none is zero. -/
def k2 (m : EccMatrices) : Bool := decide m.hRows.Nodup && m.hRows.all (fun r => r != 0#4)

end EccMatrices

/-- `ENCTAB` (10_state.md R31), built by 40_ecc_codec.md R128. -/
def encTab (cfg : Config) : List Byte := (List.range 16).map fun v => cfg.ecc.enc (BitVec.ofNat 4 v)

/-- `DECTAB` (10_state.md R32), built by 40_ecc_codec.md R128. -/
def decTab (cfg : Config) : List Byte := (List.range 256).map fun c => cfg.ecc.dec (BitVec.ofNat 8 c)

/-- The constraints the spec puts on the parameters: 00_scope.md R9, 40_ecc_codec.md R122 (K1, K2), and
93_implementation_defined.md U5. -/
def Config.wf (cfg : Config) : Bool :=
  decide (1 ≤ cfg.maxPayload) && decide (cfg.maxPayload ≤ 255) && cfg.ecc.k1 && cfg.ecc.k2 &&
  cfg.unitWriteCmd.setWidth 8 == 0#8 && cfg.freqCmd.setWidth 12 == 0#12 &&
  decide (cfg.freqMin ≤ cfg.freqMax) && decide (cfg.freqMax ≤ 0xFFF#16)

end Sys2Proof
end

