-- ==== Sys2Proof/Machine/Operands.lean ====
section
/-! DEFINITION. How operands are found: the bytes of an address space (00_scope.md R16, 20_memory.md R60), the fields of a
slot, frame ends and payload positions (30_encoding.md R100, R101), packet types (R93), and the peer's next answer. -/

namespace Sys2Proof.Machine

open Sys2Proof

/-- The byte at an offset; an unlisted offset reads 0 (70_reset_and_hazards.md R280). -/
def Memory.read : Memory → Nat → Byte
  | [], _ => 0#8
  | (k, v) :: t, a => if k = a then v else Memory.read t a

/-- The space with one byte written, in canonical form again. -/
def Memory.write : Memory → Nat → Byte → Memory
  | [], a, b => if b = 0#8 then [] else [(a, b)]
  | (k, v) :: t, a, b =>
    if a < k then (if b = 0#8 then (k, v) :: t else (a, b) :: (k, v) :: t)
    else if a = k then (if b = 0#8 then t else (a, b) :: t)
    else (k, v) :: Memory.write t a b

/-- The bytes written one after another from an offset on. -/
def Memory.writeAll (m : Memory) (base : Nat) : List Byte → Memory
  | [] => m
  | b :: bs => Memory.writeAll (m.write base b) (base + 1) bs

/-- Canonical form from offset `lo` on: offsets strictly rising and below `limit`, no listed byte 0. -/
def Memory.wfFrom (limit lo : Nat) : Memory → Bool
  | [] => true
  | (k, v) :: t => decide (lo ≤ k) && decide (k < limit) && v != 0#8 && Memory.wfFrom limit (k + 1) t

/-- The canonical form of a space of `limit` bytes. -/
def Memory.wf (limit : Nat) (m : Memory) : Bool := Memory.wfFrom limit 0 m

/-- The number of bytes of a slot and of the staging buffer (20_memory.md R60). -/
def slotBytes (cfg : Config) : Nat := 2 + cfg.maxPayload

/-- Offset of `size` (20_memory.md R60). -/
def sizeOff : Nat := 0

/-- Offset of `type` (20_memory.md R60). -/
def typeOff : Nat := 1

/-- Offset of `payload[i]` (20_memory.md R60). -/
def payloadOff (i : Nat) : Nat := 2 + i

/-- The packet a slot or the staging buffer holds. -/
def Memory.packet (m : Memory) (maxPayload : Nat) : Packet :=
  { size := m.read sizeOff
    type := m.read typeOff
    payload := (List.range maxPayload).map fun i => m.read (payloadOff i) }

/-- `RX[ix]`. -/
def State.slot (s : State) : SlotIx → Memory
  | .slot0 => s.rx0
  | .slot1 => s.rx1

/-- `RX[ACTIVE]`. -/
def State.activeSlot (s : State) : Memory := s.slot s.active

/-- The address spaces a rule reads by `MemRead` (00_scope.md R16). -/
inductive Space where
  | rx (ix : SlotIx)
  | txs
  | encTab
  | decTab
  deriving DecidableEq, Repr

/-- `MemRead(space, addr, 1)` (00_scope.md R16), `none` at an offset the space does not have (20_memory.md R60, R70). The two
tables are read here, hard-wired (log entry 3). -/
def memRead (s : State) (sp : Space) (a : Nat) : Option Byte :=
  match sp with
  | .rx ix => if a < slotBytes s.cfg then some ((s.slot ix).read a) else none
  | .txs => if a < slotBytes s.cfg then some (s.txs.read a) else none
  | .encTab => (encTab s.cfg)[a]?
  | .decTab => (decTab s.cfg)[a]?

/-- The ECC types are 0x01 and 0x03 (30_encoding.md R93). -/
def isEccType (t : Byte) : Bool := t == 0x01#8 || t == 0x03#8

/-- The payload bytes a frame carries on the wire: `k * size` (30_encoding.md R90). -/
def wirePayload (m : Memory) : Nat :=
  if isEccType (m.read typeOff) then (m.read sizeOff).toNat * 2 else (m.read sizeOff).toNat

/-- `end` on receive (30_encoding.md R100). -/
def State.rxEnd (s : State) : Nat := rxOverhead + wirePayload s.activeSlot

/-- `end` on transmit (44_transmit_framer_test.md R201). -/
def State.txEnd (s : State) : Nat := txOverhead + wirePayload s.txs

/-- `off` on receive (30_encoding.md R101). -/
def State.rxOff (s : State) : Nat := s.counter.toNat - rxOverhead

/-- The offset in `RX[ACTIVE]` of the payload byte the handler stores to: index `off`, or `off / 2` for an ECC type
(30_encoding.md R101). -/
def State.rxStoreOff (s : State) : Nat :=
  if isEccType (s.activeSlot.read typeOff) then payloadOff (s.rxOff / 2) else payloadOff s.rxOff

/-- A nibble in the half of a byte that an offset's parity names: low for even, high for odd (30_encoding.md R101). -/
def nibbleInByte (off : Nat) (n : Nibble) : Byte :=
  if off % 2 = 1 then (n ++ 0#4 : BitVec 8) else n.setWidth 8

/-- The nibble of a byte that an offset's parity names (30_encoding.md R101, 20_memory.md R63). -/
def nibbleOfByte (off : Nat) (b : Byte) : Nibble :=
  if off % 2 = 1 then b.extractLsb' 4 4 else b.setWidth 4

/-- `TXBYTE(c)` for `0 <= c < end` (44_transmit_framer_test.md R202). -/
def State.txByte (s : State) (c : Nat) : Byte :=
  match c with
  | 0 => s.cfg.preamble
  | 1 => s.cfg.sync0
  | 2 => s.cfg.sync1
  | 3 => s.txs.read sizeOff
  | 4 => s.txs.read typeOff
  | off + 5 =>
    if isEccType (s.txs.read typeOff) then
      s.cfg.ecc.enc (nibbleOfByte off (s.txs.read (payloadOff (off / 2))))
    else s.txs.read (payloadOff off)

/-- The peer's next answer (20_memory.md R67): the head of `responses`, or a free value. -/
def State.nextResponse (s : State) : Word :=
  match s.responses with
  | r :: _ => r
  | [] => Config.freeResponse s.draws

/-- The unit the next `UNIT_READ` will return: bits 7:0 of the answer (41_register_transaction.md R148). -/
def State.nextUnit (s : State) : Byte := s.nextResponse.setWidth 8

/-- A length byte that starts a frame: `0 < L <= MAX_PAYLOAD` (43_receive_deframer.md R181). -/
def validLength (cfg : Config) (len : Byte) : Bool := decide (0 < len.toNat) && decide (len.toNat ≤ cfg.maxPayload)

/-- The payload array of a packet operand: `payload[0..MAX_PAYLOAD-1]`. -/
def payloadArray (p : Packet) (maxPayload : Nat) : List Byte :=
  (List.range maxPayload).map fun i => p.payload.getD i 0#8

/-- The word of a unit write (41_register_transaction.md R149). -/
def unitWriteWord (cfg : Config) (b : Byte) : Word := cfg.unitWriteCmd ||| b.setWidth 16

/-- The word of a frequency setting, `FREQ_CMD | zext_16(v[11:0])` (45_host_operations.md R237). -/
def freqWord (cfg : Config) (v : Word) : Word := cfg.freqCmd ||| (v.setWidth 12).setWidth 16

end Sys2Proof.Machine
end

