-- ==== Sys2Proof/Machine/Flags.lean ====
section
/-! DEFINITION. The one-bit flags: what sets and clears them, and the conditions computed from the state. -/

namespace Sys2Proof.Machine

open Sys2Proof

/-- The three test states (10_state.md R21). -/
def Mode.isTest : Mode → Bool
  | .testZero | .testOne | .testAlternating => true
  | .idle | .receiving | .transmitting => false

/-- The code of `STATE` (10_state.md R21). -/
def Mode.code : Mode → Byte
  | .idle => 0
  | .receiving => 1
  | .transmitting => 2
  | .testZero => 3
  | .testOne => 4
  | .testAlternating => 5

/-- `IS_IDLE` (45_host_operations.md R230). -/
def State.isIdle (s : State) : Bool := s.mode == .idle

/-- The answer of `LIVENESS` (45_host_operations.md R231, R232). -/
def State.isLive (s : State) : Bool := s.fired || s.isIdle

/-- A trigger arrives: `TRIG_PEND <- 1`, merging with one that waits (60_exceptions.md R253). -/
def State.raiseTrigger (s : State) : State := { s with trigPend := true }

/-- The entry of a handler invocation: `TRIG_PEND <- 0; FIRED <- 1`; nothing is saved, nothing is vectored and nothing has to
be restored at its end (60_exceptions.md R254, R255, R256). -/
def State.enterHandler (s : State) : State := { s with trigPend := false, fired := true }

/-- The command port is ready exactly while `FGQ` is empty (45_host_operations.md R220). -/
def State.ready (s : State) : Bool := s.fgq.isEmpty

/-- `SEL` is asserted for the length of a transaction (10_state.md R36, 41_register_transaction.md R141). -/
def State.sel (s : State) : Bool := s.inFlight.isSome

/-- The level of `SDO` in a transaction: the last bit driven (10_state.md R34, 41_register_transaction.md R143); `none` while no
bit has been driven since select was asserted and outside a transaction, where no level is specified (log entry 14). -/
def State.sdo (s : State) : Option Bool := s.inFlight.bind fun t => t.driven.getLast?

/-- `SCK`: a pulse is in progress (10_state.md R34, R36, one pulse per bit); outside a transaction there is none. Which level a
pulse has is not specified (log entry 14). -/
def State.sck (s : State) : Bool := s.inFlight.any fun t => t.sck

/-- The first of the configurations of 93_implementation_defined.md U3 that the state is in, if it is in one (log entry 12). -/
def State.unreachable (s : State) : Option Fault :=
  if s.mode = .receiving ∧ s.counter = 0#16 then some .receivingCounterZero
  else if s.mode = .receiving ∧ s.activeSlot.read sizeOff = 0#8 then some .receivingSizeZero
  else if (s.mode = .idle ∨ s.mode.isTest) ∧ s.counter ≠ 0#16 then some .counterOutsideFrame
  else if s.mbFlag ∧ s.mbPtr = none then some .mailboxWithoutSlot
  else if s.mbPtr = some s.active then some .mailboxIsActive
  else if s.cfg.maxPayload < (s.rx0.read sizeOff).toNat ∨ s.cfg.maxPayload < (s.rx1.read sizeOff).toNat
      ∨ s.cfg.maxPayload < (s.txs.read sizeOff).toNat then some .sizeAboveMax
  else if s.mode = .receiving ∧ 2 ≤ s.counter.toNat ∧ s.rxEnd ≤ s.counter.toNat then some .receivingPastEnd
  else none

end Sys2Proof.Machine
end

