-- ==== Sys2Proof/Machine/Ops.lean ====
section
/-! DEFINITION. The shared operations: bus transactions (41_register_transaction.md), the buffer manager
(42_buffer_manager.md), the absorption of a framing error (60_exceptions.md R250), the trigger's dispatch
(30_encoding.md R98), and the acceptance of a host operation (45_host_operations.md R220). -/

namespace Sys2Proof.Machine

open Sys2Proof

/-- The result of an operation or a turn. -/
abbrev Result := Host.Outcome State Fault Refusal

/-- The value an operation returns to its caller (45_host_operations.md R223). -/
def State.respond (s : State) (r : Resp) : State := { s with resp := r }

/-- The state with `RX[ix]` replaced. -/
def State.setSlot (s : State) (ix : SlotIx) (m : Memory) : State :=
  match ix with
  | .slot0 => { s with rx0 := m }
  | .slot1 => { s with rx1 := m }

/-- One byte of `RX[ACTIVE]` written (42_buffer_manager.md R162). -/
def State.writeActive (s : State) (off : Nat) (b : Byte) : State :=
  s.setSlot s.active (s.activeSlot.write off b)

/-- The peer's answer is consumed (20_memory.md R67: two reads return two different inputs). -/
def State.consumeResponse (s : State) : State :=
  match s.responses with
  | _ :: rs => { s with responses := rs }
  | [] => { s with draws := s.draws + 1 }

/-- The bus shift state when select has just been asserted (41_register_transaction.md R143): no bit driven, no pulse. -/
def InFlight.start (n : Nat) (out : Word) : InFlight :=
  { width := n, out := out, sampled := 0#16, remaining := n, driven := [], sck := false, pulses := 0 }

/-- `SDO <- out[i]` (41_register_transaction.md R141), `i` the highest bit still to go. -/
def InFlight.drive (t : InFlight) : InFlight := { t with driven := t.driven ++ [t.out.getLsbD (t.remaining - 1)] }

/-- The pulse of `SCK` begins (41_register_transaction.md R141). -/
def InFlight.pulseStart (t : InFlight) : InFlight := { t with sck := true }

/-- `in[i] <- SDI`, sampled during the pulse (41_register_transaction.md R141). -/
def InFlight.sample (t : InFlight) (sdi : Bool) : InFlight :=
  { t with sampled := (t.sampled <<< 1) ||| (if sdi then 1#16 else 0#16) }

/-- The pulse of `SCK` ends and its bit is clocked (41_register_transaction.md R141). -/
def InFlight.pulseEnd (t : InFlight) : InFlight :=
  { t with sck := false, pulses := t.pulses + 1, remaining := t.remaining - 1 }

/-- One bit-step (41_register_transaction.md R143): drive `SDO`, pulse `SCK`, sample `SDI` during the pulse. -/
def InFlight.bitStep (t : InFlight) (sdi : Bool) : InFlight := (t.drive.pulseStart.sample sdi).pulseEnd

/-- `k` bit-steps, the response line carrying bits `k-1` down to 0 of the peer's answer (20_memory.md R61). -/
def InFlight.run (answer : Word) : Nat → InFlight → InFlight
  | 0, t => t
  | k + 1, t => InFlight.run answer k (t.bitStep (answer.getLsbD k))

/-- Select asserted and `BUSY` acquired (41_register_transaction.md R141, R142). -/
def State.acquire (s : State) (t : InFlight) : State := { s with busy := true, inFlight := some t }

/-- Select deasserted, `BUSY` released, the triple appended to the trace (41_register_transaction.md R141). -/
def State.release (s : State) (t : InFlight) : State :=
  { s with busy := false, inFlight := none, trace := s.trace ++ [{ width := t.width, out := t.out, resp := t.sampled }] }

/-- The bits clocked: the shift state after all of a transaction's bit-steps. -/
def State.clockBits (s : State) (answer : Word) : State :=
  match s.inFlight with
  | some t => { s with inFlight := some (InFlight.run answer t.remaining t) }
  | none => s

/-- `XFER(n, out)` (41_register_transaction.md R141), indivisible (R142): the word sampled, and the state after. -/
def xfer (n : Nat) (out : Word) (s : State) : Word × State :=
  let s1 := (s.consumeResponse.acquire (InFlight.start n out)).clockBits s.nextResponse
  match s1.inFlight with
  | some t => (t.sampled, s1.release t)
  | none => (0#16, s1)

/-- `WRITE16(w)` (41_register_transaction.md R144). -/
def writeWord (w : Word) (s : State) : State := (xfer 16 w s).2

/-- `UNIT_READ()` (41_register_transaction.md R148). -/
def unitRead (s : State) : Byte × State :=
  let r := xfer 16 s.cfg.unitReadCmd s
  (r.1.setWidth 8, r.2)

/-- `UNIT_WRITE(b)` (41_register_transaction.md R149). -/
def unitWrite (b : Byte) (s : State) : State := writeWord (unitWriteWord s.cfg b) s

/-- `SEQ(list)` inside one step (41_register_transaction.md R150). -/
def seqWords : List Word → State → State
  | [], s => s
  | w :: ws, s => seqWords ws (writeWord w s)

/-- A request for the bus is held until `BUSY = 0` (41_register_transaction.md R142). No transaction is in flight between two
steps of a reachable state (10_state.md R28), so nothing lifts this hold (log entry 13). -/
def withBus (s : State) (k : Result) : Result := if s.busy then .next s else k

/-- `CLEAR_ACTIVE(L)` (42_buffer_manager.md R161). -/
def clearActive (len : Byte) (s : State) : State :=
  s.setSlot s.active
    ((s.activeSlot.writeAll (payloadOff 0) (List.replicate s.cfg.maxPayload 0#8)).write sizeOff len)

/-- `POST` (42_buffer_manager.md R163). -/
def postMailbox (s : State) : State :=
  { s with mbPtr := some s.active, active := s.active.other, mbFlag := true }.writeActive sizeOff 0#8

/-- `LOAD_STAGING(p)` (42_buffer_manager.md R165). -/
def loadStaging (p : Packet) (s : State) : State :=
  { s with
    txs := ((s.txs.write sizeOff p.size).write typeOff p.type).writeAll (payloadOff 0) (payloadArray p s.cfg.maxPayload) }

/-- `TAKE()` (42_buffer_manager.md R164), the rest of the operation given the answer and the state after. `MB_FLAG = 1` with
`MB_PTR = none` is a configuration of 93 U3. -/
def takeMailbox (s : State) (k : Option SlotIx → State → Result) : Result :=
  if s.mbFlag then
    match s.mbPtr with
    | some p => k (some p) { s with mbFlag := false }
    | none => .fault .mailboxWithoutSlot
  else k none s

/-- `STATE <- m; COUNTER <- n` (00_scope.md R15). -/
def State.goTo (s : State) (m : Mode) (n : Word) : State := { s with mode := m, counter := n }

/-- `RX_COMPLETE` (43_receive_deframer.md R186). -/
def rxComplete (s : State) : State := (postMailbox (seqWords s.cfg.seqFifoReset s)).goTo .idle 0#16

/-- `raise FramingError` and its absorption (60_exceptions.md R250, 00_scope.md R18): the FIFO-reset sequence is written;
nothing is saved, nothing is recorded, no vector is taken. -/
def absorbFramingError (s : State) : State := seqWords s.cfg.seqFifoReset s

/-- The further condition of 30_encoding.md R98 as bits 4:3 of the dispatch key (log entry 10). In `Idle` it depends on the
unit the invocation reads. -/
def State.condBits (s : State) : Byte :=
  match s.mode with
  | .idle => if validLength s.cfg s.nextUnit then 0x08#8 else 0x00#8
  | .receiving =>
    if s.counter = 1#16 then 0x00#8 else if isEccType (s.activeSlot.read typeOff) then 0x10#8 else 0x08#8
  | .transmitting => if s.counter.toNat < s.txEnd then 0x00#8 else 0x08#8
  | .testZero | .testOne | .testAlternating => 0x00#8

/-- The dispatch key of the trigger: the `STATE` code and the condition (30_encoding.md R98). -/
def State.handlerKey (s : State) : Byte := s.mode.code ||| s.condBits

/-- The rule the dispatch selects (30_encoding.md R98), read by the decoder of format T. -/
def State.handlerRule (s : State) : Option Instr :=
  match decode s.cfg.maxPayload .T [s.handlerKey] with
  | .ok (i, _) => some i
  | .error _ => none

/-- A handler invocation (60_exceptions.md R254) that runs the body of rule `i`. No invocation is enabled while
`TRIG_PEND = 0`; a configuration of 93 U3 faults; a rule the dispatch does not select is never run. -/
def invoke (i : Instr) (body : State → State) (s : State) : Result :=
  match s.unreachable with
  | some f => .fault f
  | none =>
    if s.trigPend then
      withBus s (if s.handlerRule = some i then .next (body s.enterHandler) else .fault .notSelected)
    else .next s

/-- Acceptance of a host operation (45_host_operations.md R220): only while `FGQ` is empty; until then it has no step (log
entry 7). -/
def accept (s : State) (k : Result) : Result := if s.ready then k else .next s

/-- `refuse` and `ignore` (60_exceptions.md R252, 93 U10): nothing changes and nothing is returned (log entry 8). -/
def ignored (s : State) : Result := .next (s.respond .nothing)

/-- `[ W(w) : w in list ]` (45_host_operations.md R225). -/
def writesOf (ws : List Word) : List Micro := ws.map .w

/-- A micro-operation as an operation of the table. -/
def Micro.instr : Micro → Instr
  | .w word => .w word
  | .claim p => .claim p

/-- When the head of `FGQ` is enabled (45_host_operations.md R221): `CLAIM` exactly when `STATE = Idle`; `W` has no condition
but the bus, whose requests hold while `BUSY = 1` (41_register_transaction.md R142). -/
def microEnabled (s : State) : Micro → Bool
  | .w _ => !s.busy
  | .claim _ => s.isIdle

/-- The next input of the environment (log entry 4) and the state without it. -/
def State.takeInput (s : State) : Input × State :=
  match s.inputs with
  | inp :: rest => (inp, { s with inputs := rest })
  | [] => (Config.freeInput s.draws, { s with draws := s.draws + 1 })

end Sys2Proof.Machine
end

