-- ==== Sys2Proof/Machine/Bus.lean ====
section
/-! DEFINITION. Format B: the bus primitives (41_register_transaction.md R141, R144, R145). The value returned stands in
`resp` (log entry 6); a dropped response leaves it alone. -/

namespace Sys2Proof.Machine

open Sys2Proof

/-- `XFER8(out)` (R141). -/
def execXfer8 (out : Byte) (s : State) : Result :=
  let r := xfer 8 (out.setWidth 16) s
  withBus s (.next (r.2.respond (.byte (r.1.setWidth 8))))

/-- `XFER16(out)` (R141). -/
def execXfer16 (out : Word) (s : State) : Result :=
  let r := xfer 16 out s
  withBus s (.next (r.2.respond (.word r.1)))

/-- `WRITE8(w)` (R144): the response is dropped. -/
def execWrite8 (out : Byte) (s : State) : Result := withBus s (.next (xfer 8 (out.setWidth 16) s).2)

/-- `WRITE16(w)` (R144): the response is dropped. -/
def execWrite16 (out : Word) (s : State) : Result := withBus s (.next (writeWord out s))

/-- `READ8()` (R145): the outgoing line carries zeros. -/
def execRead8 (s : State) : Result :=
  let r := xfer 8 0#16 s
  withBus s (.next (r.2.respond (.byte (r.1.setWidth 8))))

/-- `READ16()` (R145): the outgoing line carries zeros. -/
def execRead16 (s : State) : Result :=
  let r := xfer 16 0#16 s
  withBus s (.next (r.2.respond (.word r.1)))

end Sys2Proof.Machine
end

