-- ==== Sys2Proof/Machine/Handler.lean ====
section
/-! DEFINITION. Format T: the handler's rules (43_receive_deframer.md, 44_transmit_framer_test.md), each the body of one
invocation (60_exceptions.md R254). -/

namespace Sys2Proof.Machine

open Sys2Proof

/-- The tail of the payload rules (R184, R185): count the byte, and complete the frame when the counter reaches `end`. -/
def rxAdvance (frameEnd : Nat) (s : State) : State :=
  let t := { s with counter := s.counter + 1#16 }
  if frameEnd ≤ t.counter.toNat then rxComplete t else t

/-- `T_IDLE_START` (R181). -/
def bodyIdleStart (s : State) : State :=
  let r := unitRead s
  (clearActive r.1 r.2).goTo .receiving 1#16

/-- `T_IDLE_FRAMING_ERROR` (R182). -/
def bodyIdleFramingError (s : State) : State := absorbFramingError (unitRead s).2

/-- `T_RX_TYPE` (R183). -/
def bodyRxType (s : State) : State :=
  let r := unitRead s
  { r.2.writeActive typeOff r.1 with counter := 2#16 }

/-- `T_RX_DATA_RAW` (R184). -/
def bodyRxDataRaw (s : State) : State :=
  let r := unitRead s
  rxAdvance s.rxEnd (r.2.writeActive s.rxStoreOff r.1)

/-- `T_RX_DATA_ECC` (R185): the decoded nibble OR-ed into its half of the payload byte; the syndrome is dropped. -/
def bodyRxDataEcc (s : State) : State :=
  let r := unitRead s
  let n := (s.cfg.ecc.dec r.1).setWidth 4
  rxAdvance s.rxEnd
    (r.2.writeActive s.rxStoreOff (s.activeSlot.read s.rxStoreOff ||| nibbleInByte s.rxOff n))

/-- `T_TX_EMIT` (R203). -/
def bodyTxEmit (s : State) : State :=
  let t := unitWrite (s.txByte s.counter.toNat) s
  { t with counter := t.counter + 1#16 }

/-- `T_TX_FINISH` (R204). -/
def bodyTxFinish (s : State) : State :=
  (seqWords s.cfg.seqFifoReset (seqWords s.cfg.seqRxEnable (seqWords s.cfg.seqTxDisable s))).goTo .idle 0#16

/-- `T_IDLE_START` as an operation. -/
def execTIdleStart (s : State) : Result := invoke .tIdleStart bodyIdleStart s

/-- `T_IDLE_FRAMING_ERROR` as an operation. -/
def execTIdleFramingError (s : State) : Result := invoke .tIdleFramingError bodyIdleFramingError s

/-- `T_RX_TYPE` as an operation. -/
def execTRxType (s : State) : Result := invoke .tRxType bodyRxType s

/-- `T_RX_DATA_RAW` as an operation. -/
def execTRxDataRaw (s : State) : Result := invoke .tRxDataRaw bodyRxDataRaw s

/-- `T_RX_DATA_ECC` as an operation. -/
def execTRxDataEcc (s : State) : Result := invoke .tRxDataEcc bodyRxDataEcc s

/-- `T_TX_EMIT` as an operation. -/
def execTTxEmit (s : State) : Result := invoke .tTxEmit bodyTxEmit s

/-- `T_TX_FINISH` as an operation. -/
def execTTxFinish (s : State) : Result := invoke .tTxFinish bodyTxFinish s

/-- `T_TEST_ZERO` (R205). -/
def execTTestZero (s : State) : Result := invoke .tTestZero (fun t => unitWrite t.cfg.patZero t) s

/-- `T_TEST_ONE` (R206). -/
def execTTestOne (s : State) : Result := invoke .tTestOne (fun t => unitWrite t.cfg.patOne t) s

/-- `T_TEST_ALT` (R207). -/
def execTTestAlt (s : State) : Result := invoke .tTestAlt (fun t => unitWrite t.cfg.patAlt t) s

end Sys2Proof.Machine
end

