-- ==== Sys2Proof/Machine/HostOps.lean ====
section
/-! DEFINITION. Format H: the host operations (45_host_operations.md), each accepted by R220. -/

namespace Sys2Proof.Machine

open Sys2Proof

/-- `ENCODE_NIBBLE(v)` (R238). -/
def execEncodeNibble (v : Nibble) (s : State) : Result := accept s (.next (s.respond (.byte (s.cfg.ecc.enc v))))

/-- `DECODE_NIBBLE(c)` (R239). -/
def execDecodeNibble (c : Byte) (s : State) : Result := accept s (.next (s.respond (.byte (s.cfg.ecc.dec c))))

/-- What `SUBMIT` refuses (R225): a size above `MAX_PAYLOAD` or a type that is none of the four. -/
def submitRefused (cfg : Config) (p : Packet) : Bool :=
  decide (cfg.maxPayload < p.size.toNat) || decide (3 < p.type.toNat)

/-- The micro-operations `SUBMIT` appends (R225). -/
def submitTail (cfg : Config) (p : Packet) : List Micro := .claim p :: writesOf cfg.seqTxEnable

/-- `SUBMIT(p)` (R225): in a test state a hardware reset is forced first. -/
def execSubmit (p : Packet) (s : State) : Result :=
  accept s
    (if submitRefused s.cfg p then ignored s
     else if s.mode.isTest then
       .next { s.goTo .idle 0#16 with fgq := writesOf s.cfg.seqHwReset ++ submitTail s.cfg p, resp := .nothing }
     else .next { s with fgq := s.fgq ++ submitTail s.cfg p, resp := .nothing })

/-- `POLL_RECEIVED()` (R228): the slot index and the slot's packet at that instant. -/
def execPollReceived (s : State) : Result :=
  accept s (takeMailbox s fun p t =>
    .next (t.respond (.packet (p.map fun ix => (ix, (t.slot ix).packet t.cfg.maxPayload)))))

/-- `IS_IDLE()` (R230). -/
def execIsIdle (s : State) : Result := accept s (.next (s.respond (.bit s.isIdle)))

/-- `LIVENESS()` (R231): reads and clears `FIRED`. -/
def execLiveness (s : State) : Result := accept s (.next { s with fired := false, resp := .bit s.isLive })

/-- `RESET()` (R233, R234). -/
def execReset (s : State) : Result :=
  accept s (.next { s.goTo .idle 0#16 with fgq := writesOf s.cfg.seqHwReset, resp := .nothing })

/-- The test state a mode operand names, none for 3 (R235). -/
def testModeOf (m : BitVec 2) : Option Mode :=
  match m.toNat with
  | 0 => some .testZero
  | 1 => some .testOne
  | 2 => some .testAlternating
  | _ => none

/-- `ENTER_TEST_MODE(m)` (R235). -/
def execEnterTestMode (m : BitVec 2) (s : State) : Result :=
  accept s
    (match testModeOf m with
     | some mode => .next { s.goTo mode 0#16 with fgq := writesOf s.cfg.seqTxEnable, resp := .nothing }
     | none => ignored s)

/-- `SET_REGISTER(w)` (R236). -/
def execSetRegister (w : Word) (s : State) : Result :=
  accept s (.next { s with fgq := [.w w], resp := .nothing })

/-- `SET_FREQUENCY(v)` (R237). -/
def execSetFrequency (v : Word) (s : State) : Result :=
  accept s
    (if s.cfg.freqMin ≤ v ∧ v ≤ s.cfg.freqMax then .next { s with fgq := [.w (freqWord s.cfg v)], resp := .nothing }
     else ignored s)

/-- `PEEK(slot, offset)` (R229): refused at an offset outside the slot. -/
def execPeek (slot : SlotIx) (offset : Word) (s : State) : Result :=
  accept s
    (match memRead s (.rx slot) offset.toNat with
     | some b => .next (s.respond (.byte b))
     | none => ignored s)

end Sys2Proof.Machine
end

