-- ==== Sys2Proof/Machine/Internal.lean ====
section
/-! DEFINITION. Format I: the operations other rules invoke by name (30_encoding.md R105), each called on its own; a value it
returns to its caller stands in `resp` (log entry 6). They are no steps of the engine (00_scope.md R8; log entry 23). -/

namespace Sys2Proof.Machine

open Sys2Proof

/-- `ENC(v)` (40_ecc_codec.md R123). -/
def execEnc (v : Nibble) (s : State) : Result := .next (s.respond (.byte (s.cfg.ecc.enc v)))

/-- `SYN(c)` (40_ecc_codec.md R124). -/
def execSyn (c : Byte) (s : State) : Result := .next (s.respond (.nibble (s.cfg.ecc.syn c)))

/-- `ERRPOS(s)` (40_ecc_codec.md R125). -/
def execErrpos (syndrome : Nibble) (s : State) : Result := .next (s.respond (.position (s.cfg.ecc.errPos syndrome)))

/-- `DEC(c)` (40_ecc_codec.md R126). -/
def execDec (c : Byte) (s : State) : Result := .next (s.respond (.byte (s.cfg.ecc.dec c)))

/-- `UNIT_READ()` (41_register_transaction.md R148). -/
def execUnitRead (s : State) : Result :=
  let r := unitRead s
  withBus s (.next (r.2.respond (.byte r.1)))

/-- `UNIT_WRITE(b)` (41_register_transaction.md R149). -/
def execUnitWrite (b : Byte) (s : State) : Result := withBus s (.next (unitWrite b s))

/-- `SEQ(list)` (41_register_transaction.md R150). -/
def execSeq (words : List Word) (s : State) : Result := withBus s (.next (seqWords words s))

/-- `CLEAR_ACTIVE(L)` (42_buffer_manager.md R161). -/
def execClearActive (len : Byte) (s : State) : Result := .next (clearActive len s)

/-- `POST` (42_buffer_manager.md R163). -/
def execPost (s : State) : Result := .next (postMailbox s)

/-- `TAKE()` (42_buffer_manager.md R164). -/
def execTake (s : State) : Result := takeMailbox s fun p t => .next (t.respond (.slot p))

/-- `LOAD_STAGING(p)` (42_buffer_manager.md R165). -/
def execLoadStaging (p : Packet) (s : State) : Result := .next (loadStaging p s)

/-- `RX_COMPLETE` (43_receive_deframer.md R186). -/
def execRxComplete (s : State) : Result := withBus s (.next (rxComplete s))

/-- `TXBYTE(c)` (44_transmit_framer_test.md R202). Outside `0 <= c < end` the rule states no value and the value returned is
free (log entry 15). A `TXS.size` above `MAX_PAYLOAD` is a configuration of 93 U3. -/
def execTxbyte (c : Word) (s : State) : Result :=
  if s.cfg.maxPayload < (s.txs.read sizeOff).toNat then .fault .sizeAboveMax
  else if c.toNat < s.txEnd then .next (s.respond (.byte (s.txByte c.toNat)))
  else .next { s with resp := .byte (Config.freeTxByte s.draws), draws := s.draws + 1 }

end Sys2Proof.Machine
end

