-- ==== Sys2Proof/Machine/MicroOps.lean ====
section
/-! DEFINITION. Format M: the foreground micro-operations (45_host_operations.md R222, R226). The foreground's turn has taken
the element off `FGQ` before (R221; log entry 25). -/

namespace Sys2Proof.Machine

open Sys2Proof

/-- `W(w)` (R222). -/
def execW (word : Word) (s : State) : Result := withBus s (.next (writeWord word s))

/-- `CLAIM(p)` (R226): holds while `STATE` is not `Idle` (R224). -/
def execClaim (p : Packet) (s : State) : Result :=
  if s.isIdle then .next (loadStaging p (s.goTo .transmitting 0#16)) else .next s

end Sys2Proof.Machine
end

