-- ==== Sys2Proof/Machine/Dispatch.lean ====
section
/-! DEFINITION. One meaning for each operation of the table. -/

namespace Sys2Proof.Machine

open Sys2Proof

def exec (i : Instr) (s : State) : Host.Outcome State Fault Refusal :=
  match i with
  | .encodeNibble v => Sys2Proof.Machine.execEncodeNibble v s
  | .decodeNibble c => Sys2Proof.Machine.execDecodeNibble c s
  | .submit p => Sys2Proof.Machine.execSubmit p s
  | .pollReceived => Sys2Proof.Machine.execPollReceived s
  | .isIdle => Sys2Proof.Machine.execIsIdle s
  | .liveness => Sys2Proof.Machine.execLiveness s
  | .reset => Sys2Proof.Machine.execReset s
  | .enterTestMode m => Sys2Proof.Machine.execEnterTestMode m s
  | .setRegister word => Sys2Proof.Machine.execSetRegister word s
  | .setFrequency v => Sys2Proof.Machine.execSetFrequency v s
  | .peek slot offset => Sys2Proof.Machine.execPeek slot offset s
  | .tIdleStart => Sys2Proof.Machine.execTIdleStart s
  | .tIdleFramingError => Sys2Proof.Machine.execTIdleFramingError s
  | .tRxType => Sys2Proof.Machine.execTRxType s
  | .tRxDataRaw => Sys2Proof.Machine.execTRxDataRaw s
  | .tRxDataEcc => Sys2Proof.Machine.execTRxDataEcc s
  | .tTxEmit => Sys2Proof.Machine.execTTxEmit s
  | .tTxFinish => Sys2Proof.Machine.execTTxFinish s
  | .tTestZero => Sys2Proof.Machine.execTTestZero s
  | .tTestOne => Sys2Proof.Machine.execTTestOne s
  | .tTestAlt => Sys2Proof.Machine.execTTestAlt s
  | .xfer8 out => Sys2Proof.Machine.execXfer8 out s
  | .xfer16 out => Sys2Proof.Machine.execXfer16 out s
  | .write8 out => Sys2Proof.Machine.execWrite8 out s
  | .write16 out => Sys2Proof.Machine.execWrite16 out s
  | .read8 => Sys2Proof.Machine.execRead8 s
  | .read16 => Sys2Proof.Machine.execRead16 s
  | .w word => Sys2Proof.Machine.execW word s
  | .claim p => Sys2Proof.Machine.execClaim p s
  | .enc v => Sys2Proof.Machine.execEnc v s
  | .syn c => Sys2Proof.Machine.execSyn c s
  | .errpos syndrome => Sys2Proof.Machine.execErrpos syndrome s
  | .dec c => Sys2Proof.Machine.execDec c s
  | .unitRead => Sys2Proof.Machine.execUnitRead s
  | .unitWrite b => Sys2Proof.Machine.execUnitWrite b s
  | .seq words => Sys2Proof.Machine.execSeq words s
  | .clearActive len => Sys2Proof.Machine.execClearActive len s
  | .post => Sys2Proof.Machine.execPost s
  | .take => Sys2Proof.Machine.execTake s
  | .loadStaging p => Sys2Proof.Machine.execLoadStaging p s
  | .rxComplete => Sys2Proof.Machine.execRxComplete s
  | .txbyte c => Sys2Proof.Machine.execTxbyte c s

end Sys2Proof.Machine
end

