-- ==== Sys2Proof/Machine/Turns.lean ====
section
/-! DEFINITION. What each input of the environment makes the engine do (00_scope.md R8, 20_memory.md R74), and how a table
word is placed where the next step fetches it. A turn given to an agent that has no enabled step passes and changes nothing
(log entry 7). -/

namespace Sys2Proof.Machine

open Sys2Proof

/-- The handler's turn (60_exceptions.md R254): enabled when `TRIG_PEND = 1`. -/
def handlerTurn (s : State) : Result :=
  if s.trigPend then
    match s.handlerRule with
    | some i => exec i s
    | none => .fault .notSelected
  else .next s

/-- The foreground sequencer's turn (45_host_operations.md R221, R224): an enabled head is taken off and run; a head that is
not enabled stays. -/
def foregroundTurn (s : State) : Result :=
  match s.fgq with
  | [] => .next s
  | m :: rest => if microEnabled s m then exec m.instr { s with fgq := rest } else .next s

/-- What stands on the command port is decoded and run; an `op` of no operation is ignored (45_host_operations.md R240), and
so are operands that are no operands of it (60_exceptions.md R252; log entry 9). -/
def hostTurn (bytes : List Byte) (s : State) : Result :=
  match decode s.cfg.maxPayload .H bytes with
  | .ok (i, _) => exec i s
  | .error _ => accept s (ignored s)

/-- The effect of one input. -/
def turn (inp : Input) (s : State) : Result :=
  match inp with
  | .trigger => .next s.raiseTrigger
  | .handler => handlerTurn s
  | .foreground => foregroundTurn s
  | .host bytes => hostTurn bytes s
  | .encPort v => exec (.enc v) s
  | .decPort c => exec (.dec c) s

/-- One step: a configuration of 93_implementation_defined.md U3 faults; otherwise the next input takes effect. -/
def stepOnce (s : State) : Result :=
  match s.unreachable with
  | some f => .fault f
  | none => turn s.takeInput.1 s.takeInput.2

/-- The mode whose code is a key of format T that carries no condition (10_state.md R21). -/
def modeOfCode (key : Byte) : Mode :=
  match key.toNat with
  | 1 => .receiving
  | 2 => .transmitting
  | 3 => .testZero
  | 4 => .testOne
  | 5 => .testAlternating
  | _ => .idle

/-- A table word placed where the next step fetches its instruction (log entry 11). A host operation stands on the command
port of an engine whose `FGQ` is empty. A rule of format T is fetched from `STATE`: the code is put there with `COUNTER` 0,
a trigger waits, the handler has the next turn, and the unit it reads is zero. -/
def placeWord (s : State) (nbits w : Nat) : State :=
  let bytes := tableBytes s.cfg.maxPayload nbits w
  match decodeTableBytes s.cfg.maxPayload bytes with
  | some i =>
    if i.format = .T then
      { s with
        inputs := .handler :: s.inputs, trigPend := true, mode := modeOfCode (bytes.headD 0), counter := 0
        responses := 0 :: s.responses }
    else { s with inputs := .host bytes :: s.inputs, fgq := [] }
  | none => { s with inputs := .host bytes :: s.inputs, fgq := [] }

end Sys2Proof.Machine
end

