-- ==== Sys2Proof/Machine/Step.lean ====
section
/-! DEFINITION. The step function. -/

namespace Sys2Proof.Machine

open Sys2Proof

/-- One step of the engine: one input of the environment takes effect (00_scope.md R8, 20_memory.md R74). -/
def step (s : State) : Host.Outcome State Fault Refusal := stepOnce s

/-- The state with a table word stored where `step` fetches its next instruction. -/
def State.withFetchWord (s : State) (nbits w : Nat) : State := placeWord s nbits w

end Sys2Proof.Machine
end

