-- ==== Sys2Proof/Safety.lean ====
section
/-! DEFINITION. What counts as a safe state (the invariants of 10_state.md R37 and the forms the model adds), and the words
claims use for what a step leaves behind: the bus words written, and whole frames received or sent. -/

namespace Sys2Proof.Machine

open Sys2Proof

/-- No transaction is in flight (10_state.md R28, R34). -/
abbrev BusIdle (s : State) : Prop := s.busy = false ∧ s.inFlight = none

/-- R37 (i): no `size` field is above `MAX_PAYLOAD`. -/
abbrev SizesBounded (s : State) : Prop :=
  (s.rx0.read sizeOff).toNat ≤ s.cfg.maxPayload ∧ (s.rx1.read sizeOff).toNat ≤ s.cfg.maxPayload ∧
  (s.txs.read sizeOff).toNat ≤ s.cfg.maxPayload

/-- R37 (ii): `COUNTER` is 0 in `Idle` and in the test states. -/
abbrev CounterZeroOutsideFrames (s : State) : Prop := (s.mode = .idle ∨ s.mode.isTest = true) → s.counter = 0#16

/-- R37 (iii): in `Receiving` the active slot has a size, and `COUNTER` is 1 or from 2 to below the frame end. -/
abbrev ReceivingInFrame (s : State) : Prop :=
  s.mode = .receiving → 1 ≤ (s.activeSlot.read sizeOff).toNat ∧
    (s.counter = 1#16 ∨ (2 ≤ s.counter.toNat ∧ s.counter.toNat < s.rxEnd))

/-- R37 (iv): in `Transmitting` the counter is at most the frame end. -/
abbrev TransmittingInFrame (s : State) : Prop := s.mode = .transmitting → s.counter.toNat ≤ s.txEnd

/-- R37 (v) and (vi): the mailbox points at the other slot, and a raised flag has a pointer. -/
abbrev MailboxSound (s : State) : Prop :=
  s.mbPtr ≠ some s.active ∧ (s.mbFlag = true → s.mbPtr ≠ none)

/-- The three byte spaces are in canonical form and inside their size (20_memory.md R60, R70). -/
abbrev SpacesCanonical (s : State) : Prop :=
  Memory.wf (slotBytes s.cfg) s.rx0 = true ∧ Memory.wf (slotBytes s.cfg) s.rx1 = true ∧
  Memory.wf (slotBytes s.cfg) s.txs = true

/-- A queued micro-operation: a claimed packet is one `SUBMIT` admits (45_host_operations.md R225). -/
def microAdmitted (cfg : Config) : Micro → Bool
  | .w _ => true
  | .claim p => p.wellFormed cfg.maxPayload && decide (p.size.toNat ≤ cfg.maxPayload) && decide (p.type.toNat ≤ 3)

/-- Every queued micro-operation is one the host operations append. -/
abbrev QueueAdmitted (s : State) : Prop := s.fgq.all (microAdmitted s.cfg) = true

/-- The invariant of the engine: 10_state.md R37 (vii by the type of `mode`), the bus idle between steps (R28), the spaces in
canonical form, admitted packets only in `FGQ`, and the constraints on the parameters. -/
abbrev Inv (s : State) : Prop :=
  SizesBounded s ∧ CounterZeroOutsideFrames s ∧ ReceivingInFrame s ∧ TransmittingInFrame s ∧ MailboxSound s ∧
  BusIdle s ∧ SpacesCanonical s ∧ QueueAdmitted s ∧ s.cfg.wf = true

/-- A handler invocation may run: no configuration of 93 U3, a trigger waits, the bus is idle (60_exceptions.md R254). -/
abbrev MayInvoke (s : State) : Prop := s.unreachable = none ∧ s.trigPend = true ∧ BusIdle s

/-- The peer's next `n` answers, first one first (20_memory.md R67). -/
def State.answers : Nat → State → List Word
  | 0, _ => []
  | n + 1, s => s.nextResponse :: State.answers n s.consumeResponse

/-- The state with `n` answers of the peer consumed. -/
def State.consume : Nat → State → State
  | 0, s => s
  | n + 1, s => State.consume n s.consumeResponse

/-- A list of 16-bit words sent in order, as the entries of the output trace (20_memory.md R68). -/
def State.busLog (s : State) (ws : List Word) : List Txn :=
  List.zipWith (fun w r => { width := 16, out := w, resp := r }) ws (s.answers ws.length)

/-- The state after the 16-bit words `ws` have been sent in order: as many answers consumed, the trace longer by them. -/
def State.afterBus (s : State) (ws : List Word) : State :=
  { s.consume ws.length with trace := s.trace ++ s.busLog ws }

/-- A trigger arrives and the handler has the next turn; the peer's next answers are `answers`. -/
def triggered (answers : List Word) (s : State) : Result :=
  match step { s with inputs := [.trigger, .handler], responses := answers } with
  | .next t => step t
  | .fault f => .fault f
  | .refused r => .refused r

/-- One trigger for each wire byte, the byte being what the peer answers the unit read with. -/
def receiveUnits : List Byte → State → Result
  | [], s => .next s
  | u :: us, s =>
    match triggered [u.setWidth 16] s with
    | .next t => receiveUnits us t
    | .fault f => .fault f
    | .refused r => .refused r

/-- `n` triggers one after another. -/
def triggers : Nat → State → Result
  | 0, s => .next s
  | n + 1, s =>
    match triggered [] s with
    | .next t => triggers n t
    | .fault f => .fault f
    | .refused r => .refused r

/-- At most one bit of a byte flipped. -/
def flipAt (b : Option (Fin 8)) (u : Byte) : Byte :=
  match b with
  | some j => u ^^^ (1#8 <<< j.val)
  | none => u

/-- The wire bytes of the frame in the staging buffer that reach a receiving engine, those from the size byte on, with at most
one bit flipped in each codeword of an ECC frame; the size byte, the type byte and the bytes of other frames arrive as they were
sent (43_receive_deframer.md R189). -/
def State.damagedBytes (s : State) (flips : Nat → Option (Fin 8)) : List Byte :=
  (List.range (s.txEnd - 3)).map fun i =>
    if isEccType (s.txs.read typeOff) ∧ 2 ≤ i then flipAt (flips i) (s.txByte (i + 3)) else s.txByte (i + 3)

end Sys2Proof.Machine
end

