-- ==== Sys2Proof/Certificates/Slice0/Obligations.lean ====
section
/-! DEFINITION. The statements for the provers, from the numbered rules of spec/. `s` is any state of the machine, the
parameters in `s.cfg` included; an answer of the peer and the choice of the next input are whatever the state's lists or the
free values give. -/

open Sys2Proof Sys2Proof.Machine

/-! ## The codec (40_ecc_codec.md) -/

/-- R123: `ENC(v)` is the parity nibble, the XOR of the rows of `ECC_P` that the set bits of `v` select, above `v` itself; it
is the entry of `ENCTAB`; `ENC(0) = 0`, `ENC(0xF) = 0xFF` with the default matrices, and `ENC` is injective. -/
def Obligations.EncodeXorsSelectedRows : Prop :=
  (∀ (m : EccMatrices) (v : Nibble),
    m.enc v = (((if v.getLsbD 0 then m.p0 else 0#4) ^^^ (if v.getLsbD 1 then m.p1 else 0#4) ^^^
      (if v.getLsbD 2 then m.p2 else 0#4) ^^^ (if v.getLsbD 3 then m.p3 else 0#4)) ++ v : BitVec 8)) ∧
  (∀ (s : State) (v : Nibble), memRead s .encTab v.toNat = some (s.cfg.ecc.enc v)) ∧
  (∀ m : EccMatrices, m.enc 0#4 = 0#8) ∧
  EccMatrices.defaults.enc 0xF#4 = 0xFF#8 ∧
  (∀ (m : EccMatrices) (v w : Nibble), m.enc v = m.enc w → v = w)

/-- `SYN(c)` (40_ecc_codec.md R124) is the XOR of the rows of `ECC_H` that the set bits of `c` select, and it is 0 at 0x00. The
third and the fourth clause are what the spec derives from it: by K1 the syndrome is 0 at every codeword, and with the default
matrices it is the received parity XOR the recomputed parity. -/
def Obligations.SyndromeXorsSelectedRows : Prop :=
  (∀ (m : EccMatrices) (c : Byte),
    m.syn c = (if c.getLsbD 0 then m.h0 else 0#4) ^^^ (if c.getLsbD 1 then m.h1 else 0#4) ^^^
      (if c.getLsbD 2 then m.h2 else 0#4) ^^^ (if c.getLsbD 3 then m.h3 else 0#4) ^^^
      (if c.getLsbD 4 then m.h4 else 0#4) ^^^ (if c.getLsbD 5 then m.h5 else 0#4) ^^^
      (if c.getLsbD 6 then m.h6 else 0#4) ^^^ (if c.getLsbD 7 then m.h7 else 0#4)) ∧
  (∀ m : EccMatrices, m.syn 0#8 = 0#4) ∧
  (∀ (m : EccMatrices) (v : Nibble), m.k1 = true → m.syn (m.enc v) = 0#4) ∧
  (∀ c : Byte, EccMatrices.defaults.syn c =
    c.extractLsb' 4 4 ^^^ (EccMatrices.defaults.enc (c.setWidth 4)).extractLsb' 4 4)

/-- R125: `ERRPOS(s)` is the least `j` in 0..7 with `ECC_H[j] == s` if one exists, else none; under K2 at most one matches. -/
def Obligations.ErrposIsLeastMatchingRow : Prop :=
  (∀ (m : EccMatrices) (s : Nibble) (j : Nat),
    m.errPos s = some j ↔ j < 8 ∧ m.hRows.getD j 0#4 = s ∧ ∀ k < j, m.hRows.getD k 0#4 ≠ s) ∧
  (∀ (m : EccMatrices) (s : Nibble), m.errPos s = none ↔ ∀ j < 8, m.hRows.getD j 0#4 ≠ s) ∧
  (∀ (m : EccMatrices) (j k : Nat), m.k2 = true → j < 8 → k < 8 → m.hRows.getD j 0#4 = m.hRows.getD k 0#4 → j = k)

/-- The three branches of `DEC(c)` (40_ecc_codec.md R126), the syndrome in bits 7:4, and the entry of `DECTAB`. The nibble of the
best-effort branch is the spec's own choice of the received low nibble (log entry 22, its decision D3). The last clause is what
the spec derives: with the default matrices the syndrome is 0 exactly at the sixteen codewords. -/
def Obligations.DecodeTakesThreeBranches : Prop :=
  (∀ (m : EccMatrices) (c : Byte), (m.dec c).extractLsb' 4 4 = m.syn c) ∧
  (∀ (m : EccMatrices) (c : Byte), m.syn c = 0#4 → (m.dec c).setWidth 4 = c.setWidth 4) ∧
  (∀ (m : EccMatrices) (c : Byte) (j : Nat), m.syn c ≠ 0#4 → m.errPos (m.syn c) = some j →
    (m.dec c).setWidth 4 = (c ^^^ (1#8 <<< j)).setWidth 4) ∧
  (∀ (m : EccMatrices) (c : Byte), m.syn c ≠ 0#4 → m.errPos (m.syn c) = none → (m.dec c).setWidth 4 = c.setWidth 4) ∧
  (∀ (s : State) (c : Byte), memRead s .decTab c.toNat = some (s.cfg.ecc.dec c)) ∧
  (∀ c : Byte, (EccMatrices.defaults.dec c).extractLsb' 4 4 = 0#4 ↔ ∃ v, c = EccMatrices.defaults.enc v)

/-- R129: for every matrix pair that meets K1 and K2, decoding a codeword gives the nibble back, and so does decoding a
codeword with any one bit flipped; the syndrome reported is 0, respectively the row of the flipped bit. -/
def Obligations.SingleBitErrorsAreCorrected : Prop :=
  ∀ m : EccMatrices, m.k1 = true → m.k2 = true → ∀ v : Nibble,
    (m.dec (m.enc v)).setWidth 4 = v ∧ (m.dec (m.enc v)).extractLsb' 4 4 = 0#4 ∧
    ∀ b : Fin 8, (m.dec (m.enc v ^^^ (1#8 <<< b.val))).setWidth 4 = v ∧
      (m.dec (m.enc v ^^^ (1#8 <<< b.val))).extractLsb' 4 4 = m.hRows.getD b.val 0#4

/-- The linearity the spec derives in its section 5 of 40_ecc_codec.md: `ENC` and `SYN` are linear over XOR, and under K1 the
syndrome of a damaged codeword is that of the error pattern alone. -/
def Obligations.CodecIsLinear : Prop :=
  (∀ (m : EccMatrices) (a b : Nibble), m.enc (a ^^^ b) = m.enc a ^^^ m.enc b) ∧
  (∀ (m : EccMatrices) (a b : Byte), m.syn (a ^^^ b) = m.syn a ^^^ m.syn b) ∧
  (∀ (m : EccMatrices) (v : Nibble) (e : Byte), m.k1 = true → m.syn (m.enc v ^^^ e) = m.syn e)

/-- With the default matrices two flipped bits are never taken for one: the syndrome is not 0, matches no row, and the received
low nibble is returned (the spec's enumeration in section 5 of 40_ecc_codec.md; the nibble is the spec's own choice, log
entry 22). -/
def Obligations.TwoBitErrorsGiveReceivedNibble : Prop :=
  ∀ (v : Nibble) (a b : Fin 8), a ≠ b →
    let c := EccMatrices.defaults.enc v ^^^ (1#8 <<< a.val) ^^^ (1#8 <<< b.val)
    EccMatrices.defaults.syn c ≠ 0#4 ∧ EccMatrices.defaults.errPos (EccMatrices.defaults.syn c) = none ∧
    (EccMatrices.defaults.dec c).setWidth 4 = c.setWidth 4

/-- The two codec operations of the command port (45_host_operations.md R238, R239), when the port is ready, return `ENC(v)` and
`DEC(c)` and change nothing else. Driven on the `ENC` and `DEC` ports (10_state.md R36) the same functions answer whatever
stands in `FGQ`; that a port is an input of the environment and that its answer stands in `resp` is the model's choice (log
entry 21). -/
def Obligations.CodecHostOperationsReturnTableEntries : Prop :=
  ∀ s : State,
    (s.fgq = [] →
      (∀ v, exec (.encodeNibble v) s = .next { s with resp := .byte (s.cfg.ecc.enc v) }) ∧
      (∀ c, exec (.decodeNibble c) s = .next { s with resp := .byte (s.cfg.ecc.dec c) })) ∧
    (∀ rest, s.unreachable = none →
      (∀ v, s.inputs = .encPort v :: rest → step s = .next { s with inputs := rest, resp := .byte (s.cfg.ecc.enc v) }) ∧
      (∀ c, s.inputs = .decPort c :: rest → step s = .next { s with inputs := rest, resp := .byte (s.cfg.ecc.dec c) }))

/-- R123 to R126 as operations called by name: each returns its value and changes nothing else. -/
def Obligations.CodecInternalsReturnValues : Prop :=
  ∀ s : State,
    (∀ v, exec (.enc v) s = .next { s with resp := .byte (s.cfg.ecc.enc v) }) ∧
    (∀ c, exec (.syn c) s = .next { s with resp := .nibble (s.cfg.ecc.syn c) }) ∧
    (∀ y, exec (.errpos y) s = .next { s with resp := .position (s.cfg.ecc.errPos y) }) ∧
    (∀ c, exec (.dec c) s = .next { s with resp := .byte (s.cfg.ecc.dec c) })

/-! ## The bus (41_register_transaction.md) -/

/-- A transaction bit by bit (20_memory.md R61, 41_register_transaction.md R141, R143). Of `n` bits, `SDO` carries the outgoing
word from bit `n-1` down to bit 0, `SCK` has pulsed `n` times, no bit is left to clock and no pulse is in progress at the end,
and bit `i` sampled is bit `i` of the answer. On the pins (10_state.md R34, R36): `SEL` is asserted in a transaction; `SDO`
takes the highest bit still to go before the pulse of `SCK` begins and keeps it while the response is sampled, when the pulse
ends, and until the next bit is driven; outside a transaction `SEL` is deasserted and `SCK` does not pulse. -/
def Obligations.TransactionClocksBitsMsbFirst : Prop :=
  (∀ (n : Nat) (out answer : Word), n ≤ 16 →
    let t := InFlight.run answer n (InFlight.start n out)
    t.remaining = 0 ∧ t.driven = (List.range n).map (fun k => out.getLsbD (n - 1 - k)) ∧ t.pulses = n ∧ t.sck = false ∧
    ∀ i, t.sampled.getLsbD i = (decide (i < n) && answer.getLsbD i)) ∧
  (∀ (s : State) (t : InFlight) (sdi : Bool),
    let pins := fun u : InFlight => let p : State := { s with inFlight := some u }; (p.sel, p.sdo, p.sck)
    let bit := t.out.getLsbD (t.remaining - 1)
    pins t.drive = (true, some bit, t.sck) ∧
    pins t.drive.pulseStart = (true, some bit, true) ∧
    pins (t.drive.pulseStart.sample sdi) = (true, some bit, true) ∧
    t.bitStep sdi = (t.drive.pulseStart.sample sdi).pulseEnd ∧
    pins (t.bitStep sdi) = (true, some bit, false) ∧ (t.bitStep sdi).pulses = t.pulses + 1) ∧
  (∀ s : State, s.inFlight = none → s.sel = false ∧ s.sck = false)

/-- R141, R144, R145: each primitive performs one transaction: the peer's next answer is consumed, the triple (width, outgoing
word, response) is appended to the trace, `BUSY` and the shift state are idle again; `XFER` and `READ` return the response,
`WRITE` drops it, and `READ` sends zeros. Nothing else changes. -/
def Obligations.BusPrimitivesPerformOneTransaction : Prop :=
  ∀ s : State, BusIdle s →
    let lo : Word := (s.nextResponse.setWidth 8).setWidth 16
    let after := fun (n : Nat) (out answer : Word) =>
      { s.consumeResponse with trace := s.trace ++ [{ width := n, out := out, resp := answer }] }
    (∀ out, exec (.xfer8 out) s = .next { after 8 (out.setWidth 16) lo with resp := .byte (s.nextResponse.setWidth 8) }) ∧
    (∀ out, exec (.xfer16 out) s = .next { after 16 out s.nextResponse with resp := .word s.nextResponse }) ∧
    (∀ out, exec (.write8 out) s = .next (after 8 (out.setWidth 16) lo)) ∧
    (∀ out, exec (.write16 out) s = .next (after 16 out s.nextResponse)) ∧
    exec .read8 s = .next { after 8 0#16 lo with resp := .byte (s.nextResponse.setWidth 8) } ∧
    exec .read16 s = .next { after 16 0#16 s.nextResponse with resp := .word s.nextResponse }

/-- R148: `UNIT_READ` is one 16-bit transaction sending `UNIT_READ_CMD`; it returns bits 7:0 of the response, whatever bits
15:8 are. -/
def Obligations.UnitReadReturnsLowByte : Prop :=
  ∀ s : State, BusIdle s →
    exec .unitRead s = .next { s.consumeResponse with
      trace := s.trace ++ [{ width := 16, out := s.cfg.unitReadCmd, resp := s.nextResponse }]
      resp := .byte (s.nextResponse.setWidth 8) }

/-- R149: `UNIT_WRITE(b)` is one 16-bit transaction sending `UNIT_WRITE_CMD | zext_16(b)`; the result is dropped. With the
constraint on the command, bits 7:0 of the word sent are the unit. -/
def Obligations.UnitWriteCarriesByte : Prop :=
  (∀ (s : State) (b : Byte), BusIdle s →
    exec (.unitWrite b) s = .next { s.consumeResponse with
      trace := s.trace ++ [{ width := 16, out := s.cfg.unitWriteCmd ||| b.setWidth 16, resp := s.nextResponse }] }) ∧
  (∀ (cfg : Config) (b : Byte), cfg.wf = true → (unitWriteWord cfg b).setWidth 8 = b)

/-- R150: `SEQ(list)` writes the words in order, each in one 16-bit transaction with an answer of its own, and nothing for the
empty list; nothing else changes. In the foreground each word is a step of its own. -/
def Obligations.SequenceWritesWordsInOrder : Prop :=
  (∀ (s : State) (ws : List Word), BusIdle s →
    exec (.seq ws) s = .next { s.consume ws.length with trace := s.trace ++ s.busLog ws } ∧
    (s.busLog ws).map (fun x => x.out) = ws ∧ (∀ x ∈ s.busLog ws, x.width = 16)) ∧
  (∀ (s : State) (w : Word) (q : List Micro) (rest : List Input), s.unreachable = none → BusIdle s →
    s.inputs = .foreground :: rest → s.fgq = .w w :: q →
    step s = .next { s.consumeResponse with
      inputs := rest, fgq := q, trace := s.trace ++ [{ width := 16, out := w, resp := s.nextResponse }] })

/-- The hold of section 2 of 41_register_transaction.md: while `BUSY = 1` a request for the bus has no effect, whichever
operation makes it (log entry 13: in the model such a call changes nothing). -/
def Obligations.BusyBusHoldsRequests : Prop :=
  ∀ s : State, s.busy = true →
    (∀ out, exec (.xfer8 out) s = .next s ∧ exec (.write8 out) s = .next s) ∧
    (∀ out, exec (.xfer16 out) s = .next s ∧ exec (.write16 out) s = .next s ∧ exec (.w out) s = .next s) ∧
    exec .read8 s = .next s ∧ exec .read16 s = .next s ∧ exec .unitRead s = .next s ∧
    (∀ b, exec (.unitWrite b) s = .next s) ∧ (∀ ws, exec (.seq ws) s = .next s) ∧ exec .rxComplete s = .next s ∧
    (∀ i, i.format = .T → s.unreachable = none → exec i s = .next s)

/-! ## The buffer manager (42_buffer_manager.md) -/

/-- R161: `CLEAR_ACTIVE(L)` zeroes the whole payload of the active slot and records the size; its type, the other slot and
everything else stay. -/
def Obligations.ClearActiveZeroesPayload : Prop :=
  ∀ (s : State) (len : Byte), SpacesCanonical s →
    ∃ t, exec (.clearActive len) s = .next t ∧
      t = { s with rx0 := t.rx0, rx1 := t.rx1 } ∧ t.slot s.active.other = s.slot s.active.other ∧
      (t.slot s.active).read sizeOff = len ∧ (t.slot s.active).read typeOff = (s.slot s.active).read typeOff ∧
      (∀ i < s.cfg.maxPayload, (t.slot s.active).read (payloadOff i) = 0#8) ∧
      (∀ a, slotBytes s.cfg ≤ a → (t.slot s.active).read a = (s.slot s.active).read a)

/-- R163: `POST` makes the slot just filled the finished one, the other one active, raises the flag, and zeroes the size of the
newly active slot, whose other bytes it keeps. -/
def Obligations.PostSwapsSlotsAndRaisesFlag : Prop :=
  ∀ s : State, SpacesCanonical s →
    ∃ t, exec .post s = .next t ∧
      t = { s with mbPtr := some s.active, active := s.active.other, mbFlag := true, rx0 := t.rx0, rx1 := t.rx1 } ∧
      t.slot s.active = s.slot s.active ∧ (t.slot s.active.other).read sizeOff = 0#8 ∧
      (∀ a, a ≠ sizeOff → (t.slot s.active.other).read a = (s.slot s.active.other).read a)

/-- R164: `TAKE` with the flag set clears it and returns the pointer, which it does not change; with the flag clear it returns
none and changes nothing. -/
def Obligations.TakeTestsAndClearsFlag : Prop :=
  ∀ s : State,
    (∀ p, s.mbFlag = true → s.mbPtr = some p → exec .take s = .next { s with mbFlag := false, resp := .slot (some p) }) ∧
    (s.mbFlag = false → exec .take s = .next { s with resp := .slot none })

/-- R165: `LOAD_STAGING(p)` copies size, type and the whole payload array into the staging buffer and changes nothing else. -/
def Obligations.LoadStagingCopiesPacket : Prop :=
  ∀ (s : State) (p : Packet), SpacesCanonical s →
    ∃ t, exec (.loadStaging p) s = .next t ∧ t = { s with txs := t.txs } ∧
      t.txs.read sizeOff = p.size ∧ t.txs.read typeOff = p.type ∧
      (∀ i < s.cfg.maxPayload, t.txs.read (payloadOff i) = p.payload.getD i 0#8) ∧
      (∀ a, slotBytes s.cfg ≤ a → t.txs.read a = s.txs.read a)

/-- The mailbox overwrite the spec derives (42_buffer_manager.md, "two completed receptions occurring before any poll"): of two
completions with no take between them, the first take returns the second slot and the second take returns none. -/
def Obligations.SecondCompletionOverwritesFirst : Prop :=
  ∀ s : State, BusIdle s →
    ∃ t u, exec .rxComplete s = .next t ∧ exec .rxComplete t = .next u ∧
      exec .take u = .next { u with mbFlag := false, resp := .slot (some s.active.other) } ∧
      exec .take { u with mbFlag := false, resp := .slot (some s.active.other) } =
        .next { u with mbFlag := false, resp := .slot none } ∧
      u.active = s.active

/-- The ownership guarantee the spec derives (42_buffer_manager.md, "will not be reused as the active buffer while its
companion slot is in use"): from a state of the invariant, a step leaves the finished slot's bytes alone, or it is the frame
completion that makes that slot active. -/
def Obligations.FinishedSlotIsKeptUntilNextCompletion : Prop :=
  ∀ (s t : State) (p : SlotIx), Inv s → s.mbPtr = some p → step s = .next t →
    (t.slot p = s.slot p ∧ t.mbPtr = some p ∧ t.active = s.active) ∨
    (s.mode = .receiving ∧ t.mode = .idle ∧ t.mbPtr = some p.other ∧ t.active = p)

/-! ## The receive side (43_receive_deframer.md) -/

/-- R181: a valid length byte in `Idle` starts a frame: one unit is read, the active slot's payload is zeroed and its size
recorded, the engine goes to `Receiving` with `COUNTER = 1`; mailbox, other slot and everything else stay. -/
def Obligations.ValidLengthStartsFrame : Prop :=
  ∀ s : State, MayInvoke s → SpacesCanonical s → s.mode = .idle →
    0 < s.nextUnit.toNat → s.nextUnit.toNat ≤ s.cfg.maxPayload →
    ∃ t, exec .tIdleStart s = .next t ∧
      t = { s.afterBus [s.cfg.unitReadCmd] with
        trigPend := false, fired := true, mode := .receiving, counter := 1#16, rx0 := t.rx0, rx1 := t.rx1 } ∧
      t.slot s.active.other = s.slot s.active.other ∧
      (t.slot s.active).read sizeOff = s.nextUnit ∧ (t.slot s.active).read typeOff = (s.slot s.active).read typeOff ∧
      (∀ i < s.cfg.maxPayload, (t.slot s.active).read (payloadOff i) = 0#8)

/-- R182, R250: an invalid length byte in `Idle` is read, the FIFO-reset sequence is written, and nothing else changes: `STATE`
stays `Idle`, `COUNTER` stays, no buffer is written, nothing is recorded. -/
def Obligations.InvalidLengthIsAbsorbed : Prop :=
  ∀ s : State, MayInvoke s → s.mode = .idle → (s.nextUnit = 0#8 ∨ s.cfg.maxPayload < s.nextUnit.toNat) →
    exec .tIdleFramingError s = .next { s.afterBus (s.cfg.unitReadCmd :: s.cfg.seqFifoReset) with
      trigPend := false, fired := true }

/-- R183: the type byte is read and stored whatever its value, and `COUNTER` becomes 2; every other byte and register stays. -/
def Obligations.TypeByteIsStored : Prop :=
  ∀ s : State, MayInvoke s → SpacesCanonical s → s.mode = .receiving → s.counter = 1#16 →
    ∃ t, exec .tRxType s = .next t ∧
      t = { s.afterBus [s.cfg.unitReadCmd] with
        trigPend := false, fired := true, counter := 2#16, rx0 := t.rx0, rx1 := t.rx1 } ∧
      t.slot s.active.other = s.slot s.active.other ∧
      (∀ a, (t.slot s.active).read a = if a = typeOff then s.nextUnit else (s.slot s.active).read a)

/-- R184 (with R186 for the last byte): a payload byte of a frame of a type that is not ECC is read and stored at index
`COUNTER - 2`; `COUNTER` counts up; at the frame end `2 + size` the frame is completed in the same step: FIFO reset, slots
swapped, mailbox raised, size of the newly active slot zeroed, `COUNTER` 0, `Idle`. Nothing else changes. -/
def Obligations.RawPayloadByteIsStored : Prop :=
  ∀ s : State, MayInvoke s → SpacesCanonical s → s.mode = .receiving → 2 ≤ s.counter.toNat →
    (s.activeSlot.read typeOff ≠ 0x01#8 ∧ s.activeSlot.read typeOff ≠ 0x03#8) →
    ∃ t, exec .tRxDataRaw s = .next t ∧
      (∀ a, (t.slot s.active).read a =
        if a = payloadOff (s.counter.toNat - 2) then s.nextUnit else (s.slot s.active).read a) ∧
      (if s.counter.toNat + 1 < 2 + (s.activeSlot.read sizeOff).toNat then
        t = { s.afterBus [s.cfg.unitReadCmd] with
          trigPend := false, fired := true, counter := s.counter + 1#16, rx0 := t.rx0, rx1 := t.rx1 } ∧
        t.slot s.active.other = s.slot s.active.other
      else
        t = { s.afterBus (s.cfg.unitReadCmd :: s.cfg.seqFifoReset) with
          trigPend := false, fired := true, mode := .idle, counter := 0#16, mbPtr := some s.active, mbFlag := true
          active := s.active.other, rx0 := t.rx0, rx1 := t.rx1 } ∧
        (t.slot s.active.other).read sizeOff = 0#8 ∧
        (∀ a, a ≠ sizeOff → (t.slot s.active.other).read a = (s.slot s.active.other).read a))

/-- R185 (with R186 for the last codeword): a codeword of an ECC frame is read and decoded, and its nibble is OR-ed into payload
byte `(COUNTER - 2) / 2`, the high half for an odd offset and the low half for an even one; `COUNTER` counts up; at the frame
end `2 + 2 * size` the frame is completed in the same step. Nothing else changes, and no codec error is signalled. -/
def Obligations.EccCodewordIsAccumulated : Prop :=
  ∀ s : State, MayInvoke s → SpacesCanonical s → s.mode = .receiving → 2 ≤ s.counter.toNat →
    (s.activeSlot.read typeOff = 0x01#8 ∨ s.activeSlot.read typeOff = 0x03#8) →
    let off := s.counter.toNat - 2
    let n : Byte := ((s.cfg.ecc.dec s.nextUnit).setWidth 4).setWidth 8
    let old := s.activeSlot.read (payloadOff (off / 2))
    ∃ t, exec .tRxDataEcc s = .next t ∧
      (∀ a, (t.slot s.active).read a =
        if a = payloadOff (off / 2) then old ||| (if off % 2 = 1 then n <<< 4 else n) else (s.slot s.active).read a) ∧
      (if s.counter.toNat + 1 < 2 + 2 * (s.activeSlot.read sizeOff).toNat then
        t = { s.afterBus [s.cfg.unitReadCmd] with
          trigPend := false, fired := true, counter := s.counter + 1#16, rx0 := t.rx0, rx1 := t.rx1 } ∧
        t.slot s.active.other = s.slot s.active.other
      else
        t = { s.afterBus (s.cfg.unitReadCmd :: s.cfg.seqFifoReset) with
          trigPend := false, fired := true, mode := .idle, counter := 0#16, mbPtr := some s.active, mbFlag := true
          active := s.active.other, rx0 := t.rx0, rx1 := t.rx1 } ∧
        (t.slot s.active.other).read sizeOff = 0#8 ∧
        (∀ a, a ≠ sizeOff → (t.slot s.active.other).read a = (s.slot s.active.other).read a))

/-- R186: `RX_COMPLETE` writes the FIFO-reset sequence, posts the active slot to the mailbox (R163), and returns to `Idle` with
`COUNTER` 0; no other byte or register changes. -/
def Obligations.FrameCompletionPostsAndReturnsToIdle : Prop :=
  ∀ s : State, BusIdle s → SpacesCanonical s →
    ∃ t, exec .rxComplete s = .next t ∧
      t = { s.afterBus s.cfg.seqFifoReset with
        mode := .idle, counter := 0#16, mbPtr := some s.active, mbFlag := true, active := s.active.other
        rx0 := t.rx0, rx1 := t.rx1 } ∧
      t.slot s.active = s.slot s.active ∧ (t.slot s.active.other).read sizeOff = 0#8 ∧
      (∀ a, a ≠ sizeOff → (t.slot s.active.other).read a = (s.slot s.active.other).read a)

/-! ## The transmit side (44_transmit_framer_test.md) -/

/-- R201, R202: the unit at each frame index below the frame end: preamble, two sync bytes, the size itself, the type itself,
then the payload, one raw byte an index or, for an ECC type, the codeword of the low nibble and then of the high nibble. -/
def Obligations.TxbyteFollowsFrameLayout : Prop :=
  ∀ (s : State) (c : Word), (s.txs.read sizeOff).toNat ≤ s.cfg.maxPayload →
    let ecc := s.txs.read typeOff = 0x01#8 ∨ s.txs.read typeOff = 0x03#8
    let size := (s.txs.read sizeOff).toNat
    let off := c.toNat - 5
    c.toNat < 5 + (if ecc then 2 * size else size) →
    exec (.txbyte c) s = .next { s with resp := .byte (
      if c = 0#16 then s.cfg.preamble
      else if c = 1#16 then s.cfg.sync0
      else if c = 2#16 then s.cfg.sync1
      else if c = 3#16 then s.txs.read sizeOff
      else if c = 4#16 then s.txs.read typeOff
      else if ecc then
        (if off % 2 = 0 then s.cfg.ecc.enc ((s.txs.read (payloadOff (off / 2))).extractLsb' 0 4)
         else s.cfg.ecc.enc ((s.txs.read (payloadOff (off / 2))).extractLsb' 4 4))
      else s.txs.read (payloadOff off)) }

/-- Outside `0 <= c < end` the spec states no value for `TXBYTE(c)` (44_transmit_framer_test.md R202): the
operation returns some byte and changes nothing but the count of free values drawn (log entry 15, the model's choice). -/
def Obligations.TxbyteOutsideFrameReturnsSomeByte : Prop :=
  ∀ (s : State) (c : Word), (s.txs.read sizeOff).toNat ≤ s.cfg.maxPayload → s.txEnd ≤ c.toNat →
    ∃ b, exec (.txbyte c) s = .next { s with resp := .byte b, draws := s.draws + 1 }

/-- R203: below the frame end a trigger in `Transmitting` writes the unit of index `COUNTER` and counts up; nothing else
changes. -/
def Obligations.TransmitEmitsOneUnit : Prop :=
  ∀ s : State, MayInvoke s → s.mode = .transmitting → s.counter.toNat < s.txEnd →
    exec .tTxEmit s = .next { s.afterBus [s.cfg.unitWriteCmd ||| (s.txByte s.counter.toNat).setWidth 16] with
      trigPend := false, fired := true, counter := s.counter + 1#16 }

/-- R204: at the frame end a trigger emits no unit, writes the transmit-disable, receive-enable and FIFO-reset sequences, and
returns to `Idle` with `COUNTER` 0; the staging buffer and everything else stay. -/
def Obligations.TransmitFinishRearmsReceive : Prop :=
  ∀ s : State, MayInvoke s → s.mode = .transmitting → s.txEnd ≤ s.counter.toNat →
    exec .tTxFinish s = .next
      { s.afterBus (s.cfg.seqTxDisable ++ s.cfg.seqRxEnable ++ s.cfg.seqFifoReset) with
        trigPend := false, fired := true, mode := .idle, counter := 0#16 }

/-- R205, R206, R207: in a test state a trigger writes that state's pattern unit and changes nothing else. -/
def Obligations.TestTonesWriteTheirPattern : Prop :=
  ∀ s : State, MayInvoke s →
    (s.mode = .testZero → exec .tTestZero s = .next { s.afterBus [s.cfg.unitWriteCmd ||| s.cfg.patZero.setWidth 16] with
      trigPend := false, fired := true }) ∧
    (s.mode = .testOne → exec .tTestOne s = .next { s.afterBus [s.cfg.unitWriteCmd ||| s.cfg.patOne.setWidth 16] with
      trigPend := false, fired := true }) ∧
    (s.mode = .testAlternating → exec .tTestAlt s = .next
      { s.afterBus [s.cfg.unitWriteCmd ||| s.cfg.patAlt.setWidth 16] with trigPend := false, fired := true })

/-- R208: test states are sticky: from a test state, a step that changes `STATE` is the acceptance of `RESET`, `SUBMIT` or
`ENTER_TEST_MODE`. -/
def Obligations.TestStatesAreSticky : Prop :=
  ∀ s t : State, s.mode.isTest = true → step s = .next t → t.mode ≠ s.mode →
    s.fgq = [] ∧ ∃ bytes r i, s.takeInput.1 = .host bytes ∧ decode s.cfg.maxPayload .H bytes = .ok (i, r) ∧
      (i = .reset ∨ (∃ p, i = .submit p) ∨ (∃ m, i = .enterTestMode m))

/-! ## Trigger and dispatch (30_encoding.md, 60_exceptions.md) -/

/-- R98: the rule a handler invocation runs, selected by `STATE`, `COUNTER`, the type and, in `Idle`, the unit read. -/
def Obligations.DispatchFollowsStateTable : Prop :=
  ∀ s : State, (s.mode = .receiving → 1 ≤ s.counter.toNat) →
    s.handlerRule = some (match s.mode with
      | .idle => if 0 < s.nextUnit.toNat ∧ s.nextUnit.toNat ≤ s.cfg.maxPayload then .tIdleStart else .tIdleFramingError
      | .receiving =>
        if s.counter.toNat = 1 then .tRxType
        else if s.activeSlot.read typeOff = 0x01#8 ∨ s.activeSlot.read typeOff = 0x03#8 then .tRxDataEcc else .tRxDataRaw
      | .transmitting => if s.counter.toNat < s.txEnd then .tTxEmit else .tTxFinish
      | .testZero => .tTestZero
      | .testOne => .tTestOne
      | .testAlternating => .tTestAlt)

/-- R253: a trigger sets `TRIG_PEND`, merging with one that waits, in every state and with nothing else changed; the invocation it
causes clears it, and no other step clears it. -/
def Obligations.TriggerArrivalSetsPending : Prop :=
  (∀ (s : State) (rest : List Input), s.unreachable = none → s.inputs = .trigger :: rest →
    step s = .next { s with inputs := rest, trigPend := true }) ∧
  (∀ s t : State, step s = .next t → s.trigPend = true →
    (t.trigPend = false ↔ s.takeInput.1 = .handler ∧ s.busy = false))

/-- R254: an invocation clears `TRIG_PEND` and sets `FIRED`, whichever rule it runs, and it completes from every state of the
invariant in which a trigger waits. -/
def Obligations.InvocationClearsPendingAndSetsFired : Prop :=
  ∀ (s : State) (rest : List Input), Inv s → s.trigPend = true → s.inputs = .handler :: rest →
    ∃ i t, s.handlerRule = some i ∧ step s = .next t ∧ exec i { s with inputs := rest } = .next t ∧
      t.trigPend = false ∧ t.fired = true ∧ t.inputs = rest ∧ t.fgq = s.fgq ∧ t.txs = s.txs ∧ t.resp = s.resp

/-! ## Host operations (45_host_operations.md) -/

/-- While `FGQ` is not empty no host operation has a step (45_host_operations.md R220). That an operation presented meanwhile
passes, its meaning answering the state unchanged, is the model's choice (log entry 7). -/
def Obligations.PortNotReadyAcceptsNothing : Prop :=
  ∀ (i : Instr) (s : State), i.format = .H → s.fgq ≠ [] → exec i s = .next s

/-- R225: `SUBMIT(p)` at acceptance: refused for a size above `MAX_PAYLOAD` or a type above 3; otherwise `CLAIM(p)` and the
transmit-enable writes are queued, in a test state behind a forced hardware reset. -/
def Obligations.SubmitQueuesClaim : Prop :=
  ∀ (s : State) (p : Packet), s.fgq = [] →
    ((s.cfg.maxPayload < p.size.toNat ∨ 3 < p.type.toNat) → exec (.submit p) s = .next { s with resp := .nothing }) ∧
    (p.size.toNat ≤ s.cfg.maxPayload → p.type.toNat ≤ 3 →
      (s.mode.isTest = false →
        exec (.submit p) s = .next { s with fgq := .claim p :: s.cfg.seqTxEnable.map .w, resp := .nothing }) ∧
      (s.mode.isTest = true →
        exec (.submit p) s = .next { s with
          mode := .idle, counter := 0#16, resp := .nothing
          fgq := s.cfg.seqHwReset.map .w ++ .claim p :: s.cfg.seqTxEnable.map .w }))

/-- `CLAIM(p)` (45_host_operations.md R226) in `Idle` goes to `Transmitting` with `COUNTER` 0 and the packet in the staging
buffer, in one step and with nothing else changed. In any other state it holds: the spec gives it no step there, and that its
meaning then answers the state unchanged is the model's choice (log entry 7). -/
def Obligations.ClaimAdmitsOnlyWhenIdle : Prop :=
  ∀ (s : State) (p : Packet), SpacesCanonical s →
    (s.mode = .idle → ∃ t, exec (.claim p) s = .next t ∧
      t = { s with mode := .transmitting, counter := 0#16, txs := t.txs } ∧
      t.txs.read sizeOff = p.size ∧ t.txs.read typeOff = p.type ∧
      (∀ i < s.cfg.maxPayload, t.txs.read (payloadOff i) = p.payload.getD i 0#8)) ∧
    (s.mode ≠ .idle → exec (.claim p) s = .next s)

/-- R222: `W(w)` is one 16-bit write on the bus and nothing else. -/
def Obligations.ForegroundWriteSendsOneWord : Prop :=
  ∀ (s : State) (w : Word), BusIdle s →
    exec (.w w) s = .next { s.consumeResponse with
      trace := s.trace ++ [{ width := 16, out := w, resp := s.nextResponse }] }

/-- The admission order the spec derives (45_host_operations.md, "`submit()` issued while state is `Transmitting` must not
corrupt the in-flight frame"): in `Transmitting`, neither accepting a `SUBMIT` nor any turn of the foreground touches `STATE`,
`COUNTER` or the staging buffer. -/
def Obligations.SubmitLeavesFrameInFlightAlone : Prop :=
  ∀ s : State, s.mode = .transmitting →
    (∀ p t, exec (.submit p) s = .next t → t.mode = s.mode ∧ t.counter = s.counter ∧ t.txs = s.txs) ∧
    (∀ rest t, s.inputs = .foreground :: rest → step s = .next t →
      t.mode = s.mode ∧ t.counter = s.counter ∧ t.txs = s.txs)

/-- R228: `POLL_RECEIVED` with the flag set clears it and returns the slot index and that slot's size, type and payload; with
the flag clear it returns none. Nothing else changes. -/
def Obligations.PollReturnsFinishedPacket : Prop :=
  ∀ s : State, s.fgq = [] →
    (∀ p, s.mbFlag = true → s.mbPtr = some p →
      exec .pollReceived s = .next { s with
        mbFlag := false
        resp := .packet (some (p,
          { size := (s.slot p).read sizeOff, type := (s.slot p).read typeOff
            payload := (List.range s.cfg.maxPayload).map fun i => (s.slot p).read (payloadOff i) })) }) ∧
    (s.mbFlag = false → exec .pollReceived s = .next { s with resp := .packet none })

/-- R229: `PEEK(s, o)` returns the byte at offset `o` of slot `s` and is refused at an offset outside the slot; it changes
nothing. -/
def Obligations.PeekReadsSlotByte : Prop :=
  ∀ (s : State) (slot : SlotIx) (o : Word), s.fgq = [] →
    (o.toNat < 2 + s.cfg.maxPayload → exec (.peek slot o) s = .next { s with resp := .byte ((s.slot slot).read o.toNat) }) ∧
    (2 + s.cfg.maxPayload ≤ o.toNat → exec (.peek slot o) s = .next { s with resp := .nothing })

/-- R230, R231: `IS_IDLE` answers whether `STATE` is `Idle` and changes nothing; `LIVENESS` answers whether the interrupt has
fired since the last check or `STATE` is `Idle`, and clears `FIRED`. -/
def Obligations.StatusOperationsAnswer : Prop :=
  ∀ s : State, s.fgq = [] →
    exec .isIdle s = .next { s with resp := .bit (decide (s.mode = .idle)) } ∧
    exec .liveness s = .next { s with fired := false, resp := .bit (s.fired || decide (s.mode = .idle)) }

/-- R233: `RESET` in any `STATE` goes to `Idle` with `COUNTER` 0 and queues the hardware-reset words; slots, mailbox, staging
buffer, `FIRED` and `TRIG_PEND` stay (R234). -/
def Obligations.ResetReturnsToIdle : Prop :=
  ∀ s : State, s.fgq = [] →
    exec .reset s = .next { s with mode := .idle, counter := 0#16, fgq := s.cfg.seqHwReset.map .w, resp := .nothing }

/-- R235: `ENTER_TEST_MODE(m)` in any `STATE` goes to the test state with `COUNTER` 0 and queues the transmit-enable words; mode
3 is ignored. -/
def Obligations.EnterTestModeSetsTestState : Prop :=
  ∀ s : State, s.fgq = [] →
    let entered := fun m : Mode => { s with mode := m, counter := 0#16, fgq := s.cfg.seqTxEnable.map .w, resp := .nothing }
    exec (.enterTestMode 0) s = .next (entered .testZero) ∧
    exec (.enterTestMode 1) s = .next (entered .testOne) ∧
    exec (.enterTestMode 2) s = .next (entered .testAlternating) ∧
    exec (.enterTestMode 3) s = .next { s with resp := .nothing }

/-- R236, R237: `SET_REGISTER(w)` queues the write of `w`; `SET_FREQUENCY(v)` queues the write of `FREQ_CMD | zext_16(v[11:0])`
inside the span and is ignored outside it. Nothing else changes. -/
def Obligations.RegisterOperationsQueueOneWrite : Prop :=
  ∀ s : State, s.fgq = [] →
    (∀ w, exec (.setRegister w) s = .next { s with fgq := [.w w], resp := .nothing }) ∧
    (∀ v : Word, s.cfg.freqMin.toNat ≤ v.toNat → v.toNat ≤ s.cfg.freqMax.toNat →
      exec (.setFrequency v) s = .next { s with
        fgq := [.w (s.cfg.freqCmd ||| (v.extractLsb' 0 12).setWidth 16)], resp := .nothing }) ∧
    (∀ v : Word, (v.toNat < s.cfg.freqMin.toNat ∨ s.cfg.freqMax.toNat < v.toNat) →
      exec (.setFrequency v) s = .next { s with resp := .nothing })

/-- R240: an `op` that is none of the table's changes no state and has no response. -/
def Obligations.UnknownOpIsIgnored : Prop :=
  ∀ (s : State) (op : Byte) (r : List Byte) (rest : List Input), s.unreachable = none → s.fgq = [] →
    s.inputs = .host (op :: r) :: rest →
    op ∉ ([0x01, 0x02, 0x10, 0x11, 0x12, 0x13, 0x14, 0x15, 0x16, 0x17, 0x18] : List Byte) →
    step s = .next { s with inputs := rest, resp := .nothing }

/-! ## The whole machine -/

/-- R280: what power-on reset leaves, every byte of the three spaces zero. -/
def Obligations.PowerOnResetState : Prop :=
  let s := State.reset
  s.mode = .idle ∧ s.counter = 0#16 ∧ s.active = .slot0 ∧ s.mbPtr = none ∧ s.mbFlag = false ∧ s.busy = false ∧
  s.fired = false ∧ s.trigPend = false ∧ s.fgq = [] ∧ s.inFlight = none ∧ s.trace = [] ∧
  (∀ a < slotBytes s.cfg, memRead s (.rx .slot0) a = some 0#8 ∧ memRead s (.rx .slot1) a = some 0#8 ∧
    memRead s .txs a = some 0#8) ∧
  (∀ v : Nibble, memRead s .encTab v.toNat = some (s.cfg.ecc.enc v)) ∧
  (∀ c : Byte, memRead s .decTab c.toNat = some (s.cfg.ecc.dec c))

/-- The invariant holds after power-on reset, for every choice of the parameters that meets their constraints. -/
def Obligations.InvariantHoldsAtReset : Prop :=
  Inv State.reset ∧ ∀ cfg : Config, cfg.wf = true → Inv (State.resetWith cfg)

/-- Every step from a state of the invariant (the clauses of section 9 of 10_state.md, the bus idle, the spaces canonical,
admitted packets only in the queue, the parameters' constraints) ends in a state of the invariant. -/
def Obligations.StepKeepsInvariant : Prop := ∀ s t : State, Inv s → step s = .next t → Inv t

/-- R258: no step from a state of the invariant faults or is refused. -/
def Obligations.InvariantStatesNeverFault : Prop := ∀ s : State, Inv s → ∃ t, step s = .next t

/-- The configurations 93_implementation_defined.md lists as reached by no rule: a step from one of them faults. -/
def Obligations.UnreachableConfigurationsFault : Prop :=
  ∀ s : State,
    ((s.mode = .receiving ∧ s.counter = 0#16) ∨ (s.mode = .receiving ∧ s.activeSlot.read sizeOff = 0#8) ∨
     ((s.mode = .idle ∨ s.mode.isTest = true) ∧ s.counter ≠ 0#16) ∨ (s.mbFlag = true ∧ s.mbPtr = none) ∨
     s.mbPtr = some s.active ∨ s.cfg.maxPayload < (s.rx0.read sizeOff).toNat ∨
     s.cfg.maxPayload < (s.rx1.read sizeOff).toNat ∨ s.cfg.maxPayload < (s.txs.read sizeOff).toNat ∨
     (s.mode = .receiving ∧ 2 ≤ s.counter.toNat ∧ s.rxEnd < s.counter.toNat)) →
    ∃ f, step s = .fault f

/-- The rights of section 3 of 60_exceptions.md: a step that is not a handler invocation leaves both receive slots, `ACTIVE` and
`MB_PTR` alone and never raises `MB_FLAG`; a handler invocation leaves the staging buffer, `FGQ` and the response alone; no step
changes the parameters or takes an entry of the trace back. -/
def Obligations.ContextsKeepTheirRights : Prop :=
  ∀ s t : State, step s = .next t →
    (s.takeInput.1 ≠ .handler →
      t.rx0 = s.rx0 ∧ t.rx1 = s.rx1 ∧ t.active = s.active ∧ t.mbPtr = s.mbPtr ∧ (t.mbFlag = true → s.mbFlag = true)) ∧
    (s.takeInput.1 = .handler → t.txs = s.txs ∧ t.fgq = s.fgq ∧ t.resp = s.resp) ∧
    t.cfg = s.cfg ∧ ∃ more, t.trace = s.trace ++ more

/-- The staging buffer (10_state.md, "Only the CLAIM step writes it"): a step that changes it is the foreground's turn with a
`CLAIM` at the head of `FGQ` in `Idle`. -/
def Obligations.OnlyClaimWritesStaging : Prop :=
  ∀ s t : State, step s = .next t → t.txs ≠ s.txs →
    s.takeInput.1 = .foreground ∧ s.mode = .idle ∧ ∃ p q, s.fgq = .claim p :: q

/-- A step runs what is decoded: the operation on the command port, the rule whose key the state gives when a trigger waits,
and an enabled micro-operation at the head of the queue. Where the spec gives an agent no step (no trigger waits, `FGQ` empty,
a `CLAIM` that holds), its turn passes and changes nothing but the consumed input: the model's choice (log entry 7; for the
handler see also log entry 17). The codec ports as inputs are the model's choice too (log entry 21). -/
def Obligations.StepRunsDecodedOperation : Prop :=
  ∀ (s : State) (rest : List Input), s.unreachable = none →
    let s1 := { s with inputs := rest }
    (∀ bytes i r, s.inputs = .host bytes :: rest → decode s.cfg.maxPayload .H bytes = .ok (i, r) → step s = exec i s1) ∧
    (s.inputs = .handler :: rest →
      (∀ i r, s.trigPend = true → decode s.cfg.maxPayload .T [s.handlerKey] = .ok (i, r) → step s = exec i s1) ∧
      (s.trigPend = false → step s = .next s1)) ∧
    (s.inputs = .foreground :: rest →
      (s.fgq = [] → step s = .next s1) ∧
      (∀ w q, s.fgq = .w w :: q → s.busy = false → step s = exec (.w w) { s1 with fgq := q }) ∧
      (∀ p q, s.fgq = .claim p :: q → s.mode = .idle → step s = exec (.claim p) { s1 with fgq := q }) ∧
      (∀ p q, s.fgq = .claim p :: q → s.mode ≠ .idle → step s = .next s1)) ∧
    (∀ v, s.inputs = .encPort v :: rest → step s = exec (.enc v) s1) ∧
    (∀ c, s.inputs = .decPort c :: rest → step s = exec (.dec c) s1)

/-- Decoding inverts encoding: in every format, the bytes of a well-formed operation, whatever follows them, decode to that
operation and leave what follows. -/
def Obligations.DecodeInvertsEncode : Prop :=
  ∀ (maxPayload : Nat) (i : Instr) (rest : List Byte), i.wellFormed maxPayload = true →
    decode maxPayload i.format (encode i ++ rest) = .ok (i, rest)

/-- Words written out from the spec's tables (30_encoding.md R97, R98) decode to the operations they stand for. -/
def Obligations.TableWordsDecodeToTheirOperations : Prop :=
  decode 2 .H [0x01, 0x07] = .ok (.encodeNibble 0x7, []) ∧
  decode 2 .H [0x10, 0x02, 0x03, 0xAB, 0xCD] = .ok (.submit { size := 2, type := 3, payload := [0xAB, 0xCD] }, []) ∧
  decode 2 .H [0x15, 0x02] = .ok (.enterTestMode 2, []) ∧
  decode 2 .H [0x18, 0x01, 0x00, 0x02] = .ok (.peek .slot1 2, []) ∧
  decode 2 .T [0x03] = .ok (.tTestZero, []) ∧
  decode 2 .H [0x19] = .error (.unknownOp 0x19)

/-! ## Whole frames -/

/-- A whole transmitted frame, as the spec derives it (44_transmit_framer_test.md R210): from `Transmitting` with
`COUNTER` 0, `end + 1` triggers write one unit for each frame index in order, then the transmit-disable, receive-enable and
FIFO-reset words, and leave `Idle` with `COUNTER` 0 and the staging buffer kept. -/
def Obligations.TransmittedFrameTrace : Prop :=
  ∀ s : State, Inv s → s.mode = .transmitting → s.counter = 0#16 →
    ∃ t, triggers (s.txEnd + 1) s = .next t ∧ t.mode = .idle ∧ t.counter = 0#16 ∧ t.txs = s.txs ∧
      t.trace.map (fun x => (x.width, x.out)) = s.trace.map (fun x => (x.width, x.out)) ++
        ((List.range s.txEnd).map (fun c => unitWriteWord s.cfg (s.txByte c)) ++
          s.cfg.seqTxDisable ++ s.cfg.seqRxEnable ++ s.cfg.seqFifoReset).map (fun w => (16, w))

/-- The round trip (43_receive_deframer.md, DOC's testable property), for every packet and all parameters: the wire bytes of a
packet from its size byte on, replayed through the receive path of an idle engine, deliver an equal packet, its payload beyond
the size zero, by `POLL_RECEIVED`; for ECC types this still holds if each codeword has at most one bit flipped. -/
def Obligations.ReplayedFrameIsDelivered : Prop :=
  ∀ (s : State) (p : Packet) (flips : Nat → Option (Fin 8)), Inv s → s.mode = .idle → s.fgq = [] →
    1 ≤ p.size.toNat → p.size.toNat ≤ s.cfg.maxPayload → p.type.toNat ≤ 3 → p.payload.length = s.cfg.maxPayload →
    ∃ t u, receiveUnits ((loadStaging p s).damagedBytes flips) s = .next t ∧
      t.mode = .idle ∧ t.counter = 0#16 ∧ t.mbFlag = true ∧ t.mbPtr = some s.active ∧
      exec .pollReceived t = .next u ∧
      u.resp = .packet (some (s.active,
        { size := p.size, type := p.type
          payload := (List.range s.cfg.maxPayload).map fun i => if i < p.size.toNat then p.payload.getD i 0#8 else 0#8 }))
end

