-- ==== Sys2Proof/Laws/State.lean ====
section
/-! SUPPORT. What each update of the state leaves in each field, so that no later proof unfolds a record update. -/

namespace Sys2Proof.Machine

open Sys2Proof

variable (s : State)

@[simp] theorem State.respond_cfg (r : Resp) : (s.respond r).cfg = s.cfg := rfl
@[simp] theorem State.respond_mode (r : Resp) : (s.respond r).mode = s.mode := rfl
@[simp] theorem State.respond_counter (r : Resp) : (s.respond r).counter = s.counter := rfl
@[simp] theorem State.respond_rx0 (r : Resp) : (s.respond r).rx0 = s.rx0 := rfl
@[simp] theorem State.respond_rx1 (r : Resp) : (s.respond r).rx1 = s.rx1 := rfl
@[simp] theorem State.respond_active (r : Resp) : (s.respond r).active = s.active := rfl
@[simp] theorem State.respond_mbPtr (r : Resp) : (s.respond r).mbPtr = s.mbPtr := rfl
@[simp] theorem State.respond_mbFlag (r : Resp) : (s.respond r).mbFlag = s.mbFlag := rfl
@[simp] theorem State.respond_txs (r : Resp) : (s.respond r).txs = s.txs := rfl
@[simp] theorem State.respond_busy (r : Resp) : (s.respond r).busy = s.busy := rfl
@[simp] theorem State.respond_fired (r : Resp) : (s.respond r).fired = s.fired := rfl
@[simp] theorem State.respond_trigPend (r : Resp) : (s.respond r).trigPend = s.trigPend := rfl
@[simp] theorem State.respond_fgq (r : Resp) : (s.respond r).fgq = s.fgq := rfl
@[simp] theorem State.respond_inFlight (r : Resp) : (s.respond r).inFlight = s.inFlight := rfl
@[simp] theorem State.respond_resp (r : Resp) : (s.respond r).resp = r := rfl
@[simp] theorem State.respond_trace (r : Resp) : (s.respond r).trace = s.trace := rfl
@[simp] theorem State.respond_inputs (r : Resp) : (s.respond r).inputs = s.inputs := rfl
@[simp] theorem State.respond_responses (r : Resp) : (s.respond r).responses = s.responses := rfl
@[simp] theorem State.respond_draws (r : Resp) : (s.respond r).draws = s.draws := rfl

@[simp] theorem State.raiseTrigger_cfg : (s.raiseTrigger).cfg = s.cfg := rfl
@[simp] theorem State.raiseTrigger_mode : (s.raiseTrigger).mode = s.mode := rfl
@[simp] theorem State.raiseTrigger_counter : (s.raiseTrigger).counter = s.counter := rfl
@[simp] theorem State.raiseTrigger_rx0 : (s.raiseTrigger).rx0 = s.rx0 := rfl
@[simp] theorem State.raiseTrigger_rx1 : (s.raiseTrigger).rx1 = s.rx1 := rfl
@[simp] theorem State.raiseTrigger_active : (s.raiseTrigger).active = s.active := rfl
@[simp] theorem State.raiseTrigger_mbPtr : (s.raiseTrigger).mbPtr = s.mbPtr := rfl
@[simp] theorem State.raiseTrigger_mbFlag : (s.raiseTrigger).mbFlag = s.mbFlag := rfl
@[simp] theorem State.raiseTrigger_txs : (s.raiseTrigger).txs = s.txs := rfl
@[simp] theorem State.raiseTrigger_busy : (s.raiseTrigger).busy = s.busy := rfl
@[simp] theorem State.raiseTrigger_fired : (s.raiseTrigger).fired = s.fired := rfl
@[simp] theorem State.raiseTrigger_trigPend : (s.raiseTrigger).trigPend = true := rfl
@[simp] theorem State.raiseTrigger_fgq : (s.raiseTrigger).fgq = s.fgq := rfl
@[simp] theorem State.raiseTrigger_inFlight : (s.raiseTrigger).inFlight = s.inFlight := rfl
@[simp] theorem State.raiseTrigger_resp : (s.raiseTrigger).resp = s.resp := rfl
@[simp] theorem State.raiseTrigger_trace : (s.raiseTrigger).trace = s.trace := rfl
@[simp] theorem State.raiseTrigger_inputs : (s.raiseTrigger).inputs = s.inputs := rfl
@[simp] theorem State.raiseTrigger_responses : (s.raiseTrigger).responses = s.responses := rfl
@[simp] theorem State.raiseTrigger_draws : (s.raiseTrigger).draws = s.draws := rfl

@[simp] theorem State.enterHandler_cfg : (s.enterHandler).cfg = s.cfg := rfl
@[simp] theorem State.enterHandler_mode : (s.enterHandler).mode = s.mode := rfl
@[simp] theorem State.enterHandler_counter : (s.enterHandler).counter = s.counter := rfl
@[simp] theorem State.enterHandler_rx0 : (s.enterHandler).rx0 = s.rx0 := rfl
@[simp] theorem State.enterHandler_rx1 : (s.enterHandler).rx1 = s.rx1 := rfl
@[simp] theorem State.enterHandler_active : (s.enterHandler).active = s.active := rfl
@[simp] theorem State.enterHandler_mbPtr : (s.enterHandler).mbPtr = s.mbPtr := rfl
@[simp] theorem State.enterHandler_mbFlag : (s.enterHandler).mbFlag = s.mbFlag := rfl
@[simp] theorem State.enterHandler_txs : (s.enterHandler).txs = s.txs := rfl
@[simp] theorem State.enterHandler_busy : (s.enterHandler).busy = s.busy := rfl
@[simp] theorem State.enterHandler_fired : (s.enterHandler).fired = true := rfl
@[simp] theorem State.enterHandler_trigPend : (s.enterHandler).trigPend = false := rfl
@[simp] theorem State.enterHandler_fgq : (s.enterHandler).fgq = s.fgq := rfl
@[simp] theorem State.enterHandler_inFlight : (s.enterHandler).inFlight = s.inFlight := rfl
@[simp] theorem State.enterHandler_resp : (s.enterHandler).resp = s.resp := rfl
@[simp] theorem State.enterHandler_trace : (s.enterHandler).trace = s.trace := rfl
@[simp] theorem State.enterHandler_inputs : (s.enterHandler).inputs = s.inputs := rfl
@[simp] theorem State.enterHandler_responses : (s.enterHandler).responses = s.responses := rfl
@[simp] theorem State.enterHandler_draws : (s.enterHandler).draws = s.draws := rfl

@[simp] theorem State.goTo_cfg (m : Mode) (n : Word) : (s.goTo m n).cfg = s.cfg := rfl
@[simp] theorem State.goTo_mode (m : Mode) (n : Word) : (s.goTo m n).mode = m := rfl
@[simp] theorem State.goTo_counter (m : Mode) (n : Word) : (s.goTo m n).counter = n := rfl
@[simp] theorem State.goTo_rx0 (m : Mode) (n : Word) : (s.goTo m n).rx0 = s.rx0 := rfl
@[simp] theorem State.goTo_rx1 (m : Mode) (n : Word) : (s.goTo m n).rx1 = s.rx1 := rfl
@[simp] theorem State.goTo_active (m : Mode) (n : Word) : (s.goTo m n).active = s.active := rfl
@[simp] theorem State.goTo_mbPtr (m : Mode) (n : Word) : (s.goTo m n).mbPtr = s.mbPtr := rfl
@[simp] theorem State.goTo_mbFlag (m : Mode) (n : Word) : (s.goTo m n).mbFlag = s.mbFlag := rfl
@[simp] theorem State.goTo_txs (m : Mode) (n : Word) : (s.goTo m n).txs = s.txs := rfl
@[simp] theorem State.goTo_busy (m : Mode) (n : Word) : (s.goTo m n).busy = s.busy := rfl
@[simp] theorem State.goTo_fired (m : Mode) (n : Word) : (s.goTo m n).fired = s.fired := rfl
@[simp] theorem State.goTo_trigPend (m : Mode) (n : Word) : (s.goTo m n).trigPend = s.trigPend := rfl
@[simp] theorem State.goTo_fgq (m : Mode) (n : Word) : (s.goTo m n).fgq = s.fgq := rfl
@[simp] theorem State.goTo_inFlight (m : Mode) (n : Word) : (s.goTo m n).inFlight = s.inFlight := rfl
@[simp] theorem State.goTo_resp (m : Mode) (n : Word) : (s.goTo m n).resp = s.resp := rfl
@[simp] theorem State.goTo_trace (m : Mode) (n : Word) : (s.goTo m n).trace = s.trace := rfl
@[simp] theorem State.goTo_inputs (m : Mode) (n : Word) : (s.goTo m n).inputs = s.inputs := rfl
@[simp] theorem State.goTo_responses (m : Mode) (n : Word) : (s.goTo m n).responses = s.responses := rfl
@[simp] theorem State.goTo_draws (m : Mode) (n : Word) : (s.goTo m n).draws = s.draws := rfl

@[simp] theorem State.acquire_cfg (t : InFlight) : (s.acquire t).cfg = s.cfg := rfl
@[simp] theorem State.acquire_mode (t : InFlight) : (s.acquire t).mode = s.mode := rfl
@[simp] theorem State.acquire_counter (t : InFlight) : (s.acquire t).counter = s.counter := rfl
@[simp] theorem State.acquire_rx0 (t : InFlight) : (s.acquire t).rx0 = s.rx0 := rfl
@[simp] theorem State.acquire_rx1 (t : InFlight) : (s.acquire t).rx1 = s.rx1 := rfl
@[simp] theorem State.acquire_active (t : InFlight) : (s.acquire t).active = s.active := rfl
@[simp] theorem State.acquire_mbPtr (t : InFlight) : (s.acquire t).mbPtr = s.mbPtr := rfl
@[simp] theorem State.acquire_mbFlag (t : InFlight) : (s.acquire t).mbFlag = s.mbFlag := rfl
@[simp] theorem State.acquire_txs (t : InFlight) : (s.acquire t).txs = s.txs := rfl
@[simp] theorem State.acquire_busy (t : InFlight) : (s.acquire t).busy = true := rfl
@[simp] theorem State.acquire_fired (t : InFlight) : (s.acquire t).fired = s.fired := rfl
@[simp] theorem State.acquire_trigPend (t : InFlight) : (s.acquire t).trigPend = s.trigPend := rfl
@[simp] theorem State.acquire_fgq (t : InFlight) : (s.acquire t).fgq = s.fgq := rfl
@[simp] theorem State.acquire_inFlight (t : InFlight) : (s.acquire t).inFlight = some t := rfl
@[simp] theorem State.acquire_resp (t : InFlight) : (s.acquire t).resp = s.resp := rfl
@[simp] theorem State.acquire_trace (t : InFlight) : (s.acquire t).trace = s.trace := rfl
@[simp] theorem State.acquire_inputs (t : InFlight) : (s.acquire t).inputs = s.inputs := rfl
@[simp] theorem State.acquire_responses (t : InFlight) : (s.acquire t).responses = s.responses := rfl
@[simp] theorem State.acquire_draws (t : InFlight) : (s.acquire t).draws = s.draws := rfl

@[simp] theorem State.release_cfg (t : InFlight) : (s.release t).cfg = s.cfg := rfl
@[simp] theorem State.release_mode (t : InFlight) : (s.release t).mode = s.mode := rfl
@[simp] theorem State.release_counter (t : InFlight) : (s.release t).counter = s.counter := rfl
@[simp] theorem State.release_rx0 (t : InFlight) : (s.release t).rx0 = s.rx0 := rfl
@[simp] theorem State.release_rx1 (t : InFlight) : (s.release t).rx1 = s.rx1 := rfl
@[simp] theorem State.release_active (t : InFlight) : (s.release t).active = s.active := rfl
@[simp] theorem State.release_mbPtr (t : InFlight) : (s.release t).mbPtr = s.mbPtr := rfl
@[simp] theorem State.release_mbFlag (t : InFlight) : (s.release t).mbFlag = s.mbFlag := rfl
@[simp] theorem State.release_txs (t : InFlight) : (s.release t).txs = s.txs := rfl
@[simp] theorem State.release_busy (t : InFlight) : (s.release t).busy = false := rfl
@[simp] theorem State.release_fired (t : InFlight) : (s.release t).fired = s.fired := rfl
@[simp] theorem State.release_trigPend (t : InFlight) : (s.release t).trigPend = s.trigPend := rfl
@[simp] theorem State.release_fgq (t : InFlight) : (s.release t).fgq = s.fgq := rfl
@[simp] theorem State.release_inFlight (t : InFlight) : (s.release t).inFlight = none := rfl
@[simp] theorem State.release_resp (t : InFlight) : (s.release t).resp = s.resp := rfl
@[simp] theorem State.release_trace (t : InFlight) : (s.release t).trace = s.trace ++ [{ width := t.width, out := t.out, resp := t.sampled }] := rfl
@[simp] theorem State.release_inputs (t : InFlight) : (s.release t).inputs = s.inputs := rfl
@[simp] theorem State.release_responses (t : InFlight) : (s.release t).responses = s.responses := rfl
@[simp] theorem State.release_draws (t : InFlight) : (s.release t).draws = s.draws := rfl

@[simp] theorem State.setSlot_cfg (ix : SlotIx) (m : Memory) : (s.setSlot ix m).cfg = s.cfg := by cases ix <;> rfl
@[simp] theorem State.setSlot_mode (ix : SlotIx) (m : Memory) : (s.setSlot ix m).mode = s.mode := by cases ix <;> rfl
@[simp] theorem State.setSlot_counter (ix : SlotIx) (m : Memory) : (s.setSlot ix m).counter = s.counter := by cases ix <;> rfl
@[simp] theorem State.setSlot_active (ix : SlotIx) (m : Memory) : (s.setSlot ix m).active = s.active := by cases ix <;> rfl
@[simp] theorem State.setSlot_mbPtr (ix : SlotIx) (m : Memory) : (s.setSlot ix m).mbPtr = s.mbPtr := by cases ix <;> rfl
@[simp] theorem State.setSlot_mbFlag (ix : SlotIx) (m : Memory) : (s.setSlot ix m).mbFlag = s.mbFlag := by cases ix <;> rfl
@[simp] theorem State.setSlot_txs (ix : SlotIx) (m : Memory) : (s.setSlot ix m).txs = s.txs := by cases ix <;> rfl
@[simp] theorem State.setSlot_busy (ix : SlotIx) (m : Memory) : (s.setSlot ix m).busy = s.busy := by cases ix <;> rfl
@[simp] theorem State.setSlot_fired (ix : SlotIx) (m : Memory) : (s.setSlot ix m).fired = s.fired := by cases ix <;> rfl
@[simp] theorem State.setSlot_trigPend (ix : SlotIx) (m : Memory) : (s.setSlot ix m).trigPend = s.trigPend := by cases ix <;> rfl
@[simp] theorem State.setSlot_fgq (ix : SlotIx) (m : Memory) : (s.setSlot ix m).fgq = s.fgq := by cases ix <;> rfl
@[simp] theorem State.setSlot_inFlight (ix : SlotIx) (m : Memory) : (s.setSlot ix m).inFlight = s.inFlight := by cases ix <;> rfl
@[simp] theorem State.setSlot_resp (ix : SlotIx) (m : Memory) : (s.setSlot ix m).resp = s.resp := by cases ix <;> rfl
@[simp] theorem State.setSlot_trace (ix : SlotIx) (m : Memory) : (s.setSlot ix m).trace = s.trace := by cases ix <;> rfl
@[simp] theorem State.setSlot_inputs (ix : SlotIx) (m : Memory) : (s.setSlot ix m).inputs = s.inputs := by cases ix <;> rfl
@[simp] theorem State.setSlot_responses (ix : SlotIx) (m : Memory) : (s.setSlot ix m).responses = s.responses := by cases ix <;> rfl
@[simp] theorem State.setSlot_draws (ix : SlotIx) (m : Memory) : (s.setSlot ix m).draws = s.draws := by cases ix <;> rfl

@[simp] theorem State.consumeResponse_cfg : (s.consumeResponse).cfg = s.cfg := by
  unfold State.consumeResponse; split <;> rfl
@[simp] theorem State.consumeResponse_mode : (s.consumeResponse).mode = s.mode := by
  unfold State.consumeResponse; split <;> rfl
@[simp] theorem State.consumeResponse_counter : (s.consumeResponse).counter = s.counter := by
  unfold State.consumeResponse; split <;> rfl
@[simp] theorem State.consumeResponse_rx0 : (s.consumeResponse).rx0 = s.rx0 := by
  unfold State.consumeResponse; split <;> rfl
@[simp] theorem State.consumeResponse_rx1 : (s.consumeResponse).rx1 = s.rx1 := by
  unfold State.consumeResponse; split <;> rfl
@[simp] theorem State.consumeResponse_active : (s.consumeResponse).active = s.active := by
  unfold State.consumeResponse; split <;> rfl
@[simp] theorem State.consumeResponse_mbPtr : (s.consumeResponse).mbPtr = s.mbPtr := by
  unfold State.consumeResponse; split <;> rfl
@[simp] theorem State.consumeResponse_mbFlag : (s.consumeResponse).mbFlag = s.mbFlag := by
  unfold State.consumeResponse; split <;> rfl
@[simp] theorem State.consumeResponse_txs : (s.consumeResponse).txs = s.txs := by
  unfold State.consumeResponse; split <;> rfl
@[simp] theorem State.consumeResponse_busy : (s.consumeResponse).busy = s.busy := by
  unfold State.consumeResponse; split <;> rfl
@[simp] theorem State.consumeResponse_fired : (s.consumeResponse).fired = s.fired := by
  unfold State.consumeResponse; split <;> rfl
@[simp] theorem State.consumeResponse_trigPend : (s.consumeResponse).trigPend = s.trigPend := by
  unfold State.consumeResponse; split <;> rfl
@[simp] theorem State.consumeResponse_fgq : (s.consumeResponse).fgq = s.fgq := by
  unfold State.consumeResponse; split <;> rfl
@[simp] theorem State.consumeResponse_inFlight : (s.consumeResponse).inFlight = s.inFlight := by
  unfold State.consumeResponse; split <;> rfl
@[simp] theorem State.consumeResponse_resp : (s.consumeResponse).resp = s.resp := by
  unfold State.consumeResponse; split <;> rfl
@[simp] theorem State.consumeResponse_trace : (s.consumeResponse).trace = s.trace := by
  unfold State.consumeResponse; split <;> rfl
@[simp] theorem State.consumeResponse_inputs : (s.consumeResponse).inputs = s.inputs := by
  unfold State.consumeResponse; split <;> rfl

@[simp] theorem State.slot_slot0 : s.slot .slot0 = s.rx0 := rfl
@[simp] theorem State.slot_slot1 : s.slot .slot1 = s.rx1 := rfl

/-- A slot that was replaced. -/
@[simp] theorem State.setSlot_slot_same (ix : SlotIx) (m : Memory) : (s.setSlot ix m).slot ix = m := by cases ix <;> rfl

/-- The slot that was not replaced. -/
theorem State.setSlot_slot_ne {ix jx : SlotIx} (m : Memory) (h : jx ≠ ix) : (s.setSlot ix m).slot jx = s.slot jx := by
  cases ix <;> cases jx <;> first | rfl | exact absurd rfl h

@[simp] theorem SlotIx.other_ne (ix : SlotIx) : ix.other ≠ ix := by cases ix <;> decide

@[simp] theorem SlotIx.ne_other (ix : SlotIx) : ix ≠ ix.other := by cases ix <;> decide

@[simp] theorem SlotIx.other_other (ix : SlotIx) : ix.other.other = ix := by cases ix <;> rfl

/-- With two slots, what is not one is the other. -/
theorem SlotIx.eq_other_of_ne {ix jx : SlotIx} (h : jx ≠ ix) : jx = ix.other := by
  cases ix <;> cases jx <;> first | rfl | exact absurd rfl h

end Sys2Proof.Machine
end

