-- ==== Sys2Proof/Laws/Bus.lean ====
section
/-! SUPPORT. What a bus transaction, a unit and a sequence of words do, in closed form: later proofs cite these and never
unfold the bit-steps. -/

namespace Sys2Proof.Machine

open Sys2Proof

/-! ## What each phase of a bit-step leaves in each field -/

/-- A bit-step field by field: the next bit driven, one pulse ended, one bit fewer to clock. -/
@[simp] theorem InFlight.bitStep_width (t : InFlight) (sdi : Bool) : (t.bitStep sdi).width = t.width := rfl
@[simp] theorem InFlight.bitStep_out (t : InFlight) (sdi : Bool) : (t.bitStep sdi).out = t.out := rfl
@[simp] theorem InFlight.bitStep_sampled (t : InFlight) (sdi : Bool) :
    (t.bitStep sdi).sampled = (t.sampled <<< 1) ||| (if sdi then 1#16 else 0#16) := rfl
@[simp] theorem InFlight.bitStep_remaining (t : InFlight) (sdi : Bool) : (t.bitStep sdi).remaining = t.remaining - 1 := rfl
@[simp] theorem InFlight.bitStep_driven (t : InFlight) (sdi : Bool) :
    (t.bitStep sdi).driven = t.driven ++ [t.out.getLsbD (t.remaining - 1)] := rfl
@[simp] theorem InFlight.bitStep_sck (t : InFlight) (sdi : Bool) : (t.bitStep sdi).sck = false := rfl
@[simp] theorem InFlight.bitStep_pulses (t : InFlight) (sdi : Bool) : (t.bitStep sdi).pulses = t.pulses + 1 := rfl

/-- One bit-step shifts the sampled word left and brings the response bit in at the bottom. -/
theorem InFlight.getLsbD_bitStep_sampled (t : InFlight) (sdi : Bool) (i : Nat) :
    (t.bitStep sdi).sampled.getLsbD i = (decide (i < 16) && (if i = 0 then sdi else t.sampled.getLsbD (i - 1))) := by
  cases sdi <;> rcases i with _ | i <;> simp

/-- `k` bit-steps keep the width and the word, clock `k` bits and end `k` pulses. -/
theorem InFlight.run_fields (answer : Word) : ∀ (k : Nat) (t : InFlight),
    (InFlight.run answer k t).width = t.width ∧ (InFlight.run answer k t).out = t.out ∧
    (InFlight.run answer k t).remaining = t.remaining - k ∧ (InFlight.run answer k t).pulses = t.pulses + k
  | 0, t => ⟨rfl, rfl, rfl, rfl⟩
  | k + 1, t => by
    obtain ⟨h1, h2, h3, h4⟩ := InFlight.run_fields answer k (t.bitStep (answer.getLsbD k))
    refine ⟨h1, h2, ?_, ?_⟩
    · rw [InFlight.run, h3, InFlight.bitStep_remaining]; omega
    · rw [InFlight.run, h4, InFlight.bitStep_pulses]; omega

/-- No pulse is in progress after bit-steps that began with none in progress. -/
theorem InFlight.run_sck (answer : Word) : ∀ (k : Nat) (t : InFlight), t.sck = false → (InFlight.run answer k t).sck = false
  | 0, _, h => h
  | k + 1, t, _ => InFlight.run_sck answer k (t.bitStep (answer.getLsbD k)) (InFlight.bitStep_sck t _)

/-- After `k` bit-steps the low `k` bits sampled are those of the answer, above them what had been sampled before. -/
theorem InFlight.run_sampled (answer : Word) : ∀ (k : Nat) (t : InFlight) (i : Nat),
    (InFlight.run answer k t).sampled.getLsbD i =
      (decide (i < 16) && (if i < k then answer.getLsbD i else t.sampled.getLsbD (i - k)))
  | 0, t, i => by
    by_cases h : i < 16
    · simp [InFlight.run, h]
    · have : t.sampled.getLsbD i = false := BitVec.getLsbD_of_ge t.sampled i (by omega)
      simp [InFlight.run, h, this]
  | k + 1, t, i => by
    rw [InFlight.run, InFlight.run_sampled answer k]
    by_cases h16 : i < 16
    · by_cases h1 : i < k
      · have : i < k + 1 := by omega
        simp [h16, h1, this]
      · rw [InFlight.getLsbD_bitStep_sampled]
        by_cases h2 : i = k
        · subst h2; simp [h16]
        · have h3 : ¬ i < k + 1 := by omega
          have h4 : ¬ i - k = 0 := by omega
          have h5 : i - k < 16 := by omega
          have h6 : i - k - 1 = i - (k + 1) := by omega
          simp [h16, h1, h3, h4, h5, h6]
    · simp [h16]

/-- The bits driven by `k` bit-steps: from bit `remaining - 1` down (20_memory.md R61). -/
theorem InFlight.run_driven (answer : Word) : ∀ (k : Nat) (t : InFlight),
    (InFlight.run answer k t).driven = t.driven ++ (List.range k).map fun j => t.out.getLsbD (t.remaining - 1 - j)
  | 0, t => by simp [InFlight.run]
  | k + 1, t => by
    rw [InFlight.run, InFlight.run_driven answer k, List.range_succ_eq_map]
    simp only [InFlight.bitStep_driven, InFlight.bitStep_out, InFlight.bitStep_remaining, List.append_assoc, List.singleton_append, List.map_cons, Nat.sub_zero, List.map_map,
      List.append_cancel_left_eq, List.cons.injEq, true_and]
    refine List.map_congr_left fun j _ => ?_
    simp only [Function.comp, Nat.succ_eq_add_one]
    congr 1; omega

/-! ## The pins -/

@[simp] theorem State.sel_inFlight (s : State) (t : InFlight) : State.sel { s with inFlight := some t } = true := rfl
@[simp] theorem State.sdo_inFlight (s : State) (t : InFlight) :
    State.sdo { s with inFlight := some t } = t.driven.getLast? := rfl
@[simp] theorem State.sck_inFlight (s : State) (t : InFlight) : State.sck { s with inFlight := some t } = t.sck := rfl

/-- With nothing in flight `SEL` is deasserted and `SCK` does not pulse (10_state.md R34). -/
theorem State.pins_idle {s : State} (h : s.inFlight = none) : s.sel = false ∧ s.sdo = none ∧ s.sck = false := by
  simp [State.sel, State.sdo, State.sck, h]

/-- A 16-bit transaction samples the peer's answer whole. -/
theorem InFlight.run_start_16 (answer out : Word) : (InFlight.run answer 16 (InFlight.start 16 out)).sampled = answer := by
  refine BitVec.eq_of_getLsbD_eq fun i hi => ?_
  rw [InFlight.run_sampled]
  simp [hi]

/-- An 8-bit transaction samples bits 7:0 of the answer. -/
theorem InFlight.run_start_8 (answer out : Word) :
    (InFlight.run answer 8 (InFlight.start 8 out)).sampled = (answer.setWidth 8).setWidth 16 := by
  refine BitVec.eq_of_getLsbD_eq fun i hi => ?_
  rw [InFlight.run_sampled]
  by_cases h : i < 8 <;> simp [hi, h, InFlight.start]

/-- A transaction in closed form, its response being what the bit-steps sampled. -/
theorem xfer_closed (n : Nat) (out : Word) (s : State) :
    xfer n out s =
      ((InFlight.run s.nextResponse n (InFlight.start n out)).sampled,
       { s.consumeResponse with
         busy := false, inFlight := none,
         trace := s.trace ++
           [{ width := n, out := out, resp := (InFlight.run s.nextResponse n (InFlight.start n out)).sampled }] }) := by
  have h := InFlight.run_fields s.nextResponse n (InFlight.start n out)
  simp only [xfer, State.acquire, State.clockBits, State.release, InFlight.start] at h ⊢
  rw [h.1, h.2.1]
  simp

/-- A 16-bit transaction returns the peer's answer and logs it (41_register_transaction.md R141). -/
theorem xfer_16 (out : Word) (s : State) :
    xfer 16 out s =
      (s.nextResponse,
       { s.consumeResponse with
         busy := false, inFlight := none,
         trace := s.trace ++ [{ width := 16, out := out, resp := s.nextResponse }] }) := by
  rw [xfer_closed, InFlight.run_start_16]

/-- An 8-bit transaction returns bits 7:0 of the peer's answer and logs them. -/
theorem xfer_8 (out : Word) (s : State) :
    xfer 8 out s =
      ((s.nextResponse.setWidth 8).setWidth 16,
       { s.consumeResponse with
         busy := false, inFlight := none,
         trace := s.trace ++ [{ width := 8, out := out, resp := (s.nextResponse.setWidth 8).setWidth 16 }] }) := by
  rw [xfer_closed, InFlight.run_start_8]

/-- The next answer and what consuming it leaves depend on the environment's fields alone. -/
theorem State.nextResponse_congr {s t : State} (h1 : s.responses = t.responses) (h2 : s.draws = t.draws) :
    s.nextResponse = t.nextResponse := by
  unfold State.nextResponse; rw [h1, h2]

theorem State.consumeResponse_env {s t : State} (h1 : s.responses = t.responses) (h2 : s.draws = t.draws) :
    s.consumeResponse.responses = t.consumeResponse.responses ∧ s.consumeResponse.draws = t.consumeResponse.draws := by
  unfold State.consumeResponse
  rw [h1]
  split <;> simp [h2]

theorem State.answers_congr : ∀ (n : Nat) {s t : State}, s.responses = t.responses → s.draws = t.draws →
    s.answers n = t.answers n
  | 0, _, _, _, _ => rfl
  | n + 1, s, t, h1, h2 => by
    obtain ⟨h3, h4⟩ := State.consumeResponse_env h1 h2
    rw [State.answers, State.answers, State.nextResponse_congr h1 h2, State.answers_congr n h3 h4]

theorem State.busLog_congr {s t : State} (ws : List Word) (h1 : s.responses = t.responses) (h2 : s.draws = t.draws) :
    s.busLog ws = t.busLog ws := by
  rw [State.busLog, State.busLog, State.answers_congr _ h1 h2]

/-- Consuming answers moves the environment's fields only. -/
theorem State.consume_eq : ∀ (n : Nat) (s : State),
    s.consume n = { s with responses := (s.consume n).responses, draws := (s.consume n).draws }
  | 0, _ => rfl
  | n + 1, s => by
    rw [State.consume, State.consume_eq n s.consumeResponse]
    simp

theorem State.consume_env : ∀ (n : Nat) {s t : State}, s.responses = t.responses → s.draws = t.draws →
    (s.consume n).responses = (t.consume n).responses ∧ (s.consume n).draws = (t.consume n).draws
  | 0, _, _, h1, h2 => ⟨h1, h2⟩
  | n + 1, s, t, h1, h2 => by
    obtain ⟨h3, h4⟩ := State.consumeResponse_env h1 h2
    exact State.consume_env n h3 h4

/-- What a run of transactions leaves, as one record over the state before. -/
theorem State.afterBus_eq (s : State) (ws : List Word) :
    s.afterBus ws = { s with
      responses := (s.consume ws.length).responses, draws := (s.consume ws.length).draws
      trace := s.trace ++ s.busLog ws } := by
  rw [State.afterBus, State.consume_eq]

@[simp] theorem State.afterBus_nil (s : State) : s.afterBus [] = s := by
  simp [State.afterBus, State.consume, State.busLog, State.answers]

@[simp] theorem State.afterBus_cfg (s : State) (ws : List Word) : (s.afterBus ws).cfg = s.cfg := by
  rw [State.afterBus_eq]
@[simp] theorem State.afterBus_mode (s : State) (ws : List Word) : (s.afterBus ws).mode = s.mode := by
  rw [State.afterBus_eq]
@[simp] theorem State.afterBus_counter (s : State) (ws : List Word) : (s.afterBus ws).counter = s.counter := by
  rw [State.afterBus_eq]
@[simp] theorem State.afterBus_rx0 (s : State) (ws : List Word) : (s.afterBus ws).rx0 = s.rx0 := by
  rw [State.afterBus_eq]
@[simp] theorem State.afterBus_rx1 (s : State) (ws : List Word) : (s.afterBus ws).rx1 = s.rx1 := by
  rw [State.afterBus_eq]
@[simp] theorem State.afterBus_active (s : State) (ws : List Word) : (s.afterBus ws).active = s.active := by
  rw [State.afterBus_eq]
@[simp] theorem State.afterBus_mbPtr (s : State) (ws : List Word) : (s.afterBus ws).mbPtr = s.mbPtr := by
  rw [State.afterBus_eq]
@[simp] theorem State.afterBus_mbFlag (s : State) (ws : List Word) : (s.afterBus ws).mbFlag = s.mbFlag := by
  rw [State.afterBus_eq]
@[simp] theorem State.afterBus_txs (s : State) (ws : List Word) : (s.afterBus ws).txs = s.txs := by
  rw [State.afterBus_eq]
@[simp] theorem State.afterBus_busy (s : State) (ws : List Word) : (s.afterBus ws).busy = s.busy := by
  rw [State.afterBus_eq]
@[simp] theorem State.afterBus_fired (s : State) (ws : List Word) : (s.afterBus ws).fired = s.fired := by
  rw [State.afterBus_eq]
@[simp] theorem State.afterBus_trigPend (s : State) (ws : List Word) : (s.afterBus ws).trigPend = s.trigPend := by
  rw [State.afterBus_eq]
@[simp] theorem State.afterBus_fgq (s : State) (ws : List Word) : (s.afterBus ws).fgq = s.fgq := by
  rw [State.afterBus_eq]
@[simp] theorem State.afterBus_inFlight (s : State) (ws : List Word) : (s.afterBus ws).inFlight = s.inFlight := by
  rw [State.afterBus_eq]
@[simp] theorem State.afterBus_resp (s : State) (ws : List Word) : (s.afterBus ws).resp = s.resp := by
  rw [State.afterBus_eq]
@[simp] theorem State.afterBus_inputs (s : State) (ws : List Word) : (s.afterBus ws).inputs = s.inputs := by
  rw [State.afterBus_eq]

@[simp] theorem State.afterBus_slot (s : State) (ws : List Word) (ix : SlotIx) : (s.afterBus ws).slot ix = s.slot ix := by
  cases ix <;> simp

@[simp] theorem State.afterBus_activeSlot (s : State) (ws : List Word) : (s.afterBus ws).activeSlot = s.activeSlot := by
  simp [State.activeSlot]

/-- Sending a word and then the rest. -/
theorem State.afterBus_cons (s : State) (w : Word) (ws : List Word) :
    s.afterBus (w :: ws) = (s.afterBus [w]).afterBus ws := by
  have e : (s.afterBus [w]).responses = s.consumeResponse.responses ∧
      (s.afterBus [w]).draws = s.consumeResponse.draws := ⟨rfl, rfl⟩
  obtain ⟨h1, h2⟩ := State.consume_env ws.length e.1 e.2
  rw [State.afterBus_eq (s.afterBus [w]), State.busLog_congr ws e.1 e.2, h1, h2, State.afterBus_eq s (w :: ws),
    State.afterBus_eq s [w]]
  simp [State.busLog, State.answers, State.consume]

theorem State.afterBus_append (s : State) : ∀ (us ws : List Word),
    s.afterBus (us ++ ws) = (s.afterBus us).afterBus ws
  | [], ws => by simp
  | u :: us, ws => by
    rw [List.cons_append, State.afterBus_cons, State.afterBus_append (s.afterBus [u]) us ws, State.afterBus_cons s u us]

/-- With the bus idle, a 16-bit write is one entry of the trace (41_register_transaction.md R144). -/
theorem writeWord_idle {s : State} (h : BusIdle s) (w : Word) : writeWord w s = s.afterBus [w] := by
  rw [writeWord, xfer_16, State.afterBus]
  obtain ⟨h1, h2⟩ := h
  have : s.consumeResponse.busy = false ∧ s.consumeResponse.inFlight = none := by simp [h1, h2]
  simp [State.consume, State.busLog, State.answers, ← this.1, ← this.2]

theorem State.afterBus_idle {s : State} (h : BusIdle s) (ws : List Word) : BusIdle (s.afterBus ws) := by
  rw [State.afterBus_eq]; exact h

/-- With the bus idle, a sequence is its words in order (41_register_transaction.md R150). -/
theorem seqWords_idle : ∀ (ws : List Word) {s : State}, BusIdle s → seqWords ws s = s.afterBus ws
  | [], s, _ => by simp [seqWords]
  | w :: ws, s, h => by
    rw [seqWords, writeWord_idle h, seqWords_idle ws (State.afterBus_idle h [w]), ← State.afterBus_cons]

/-- With the bus idle, a unit read returns the next unit and is one entry of the trace (41_register_transaction.md R148). -/
theorem unitRead_idle {s : State} (h : BusIdle s) :
    unitRead s = (s.nextUnit, s.afterBus [s.cfg.unitReadCmd]) := by
  have hw : (xfer 16 s.cfg.unitReadCmd s).2 = s.afterBus [s.cfg.unitReadCmd] := writeWord_idle h _
  have hr : (xfer 16 s.cfg.unitReadCmd s).1 = s.nextResponse := by rw [xfer_16]
  simp only [unitRead, hw, hr, State.nextUnit]

/-- With the bus idle, a unit write is one entry of the trace (41_register_transaction.md R149). -/
theorem unitWrite_idle {s : State} (h : BusIdle s) (b : Byte) :
    unitWrite b s = s.afterBus [unitWriteWord s.cfg b] := writeWord_idle h _

end Sys2Proof.Machine
end

