-- ==== Sys2Proof/Laws/Memory.lean ====
section
/-! SUPPORT. The byte spaces: a read after a write, the canonical form and that every memory operation keeps it, and that
canonical spaces with equal bytes are equal data. -/

namespace Sys2Proof.Machine

open Sys2Proof

namespace Memory

theorem wfFrom_mono {limit lo lo' : Nat} (h : lo' ≤ lo) :
    ∀ {m : Memory}, wfFrom limit lo m = true → wfFrom limit lo' m = true
  | [], _ => rfl
  | (k, v) :: t, hm => by
    simp only [wfFrom, Bool.and_eq_true, decide_eq_true_eq] at hm ⊢
    exact ⟨⟨⟨by omega, hm.1.1.2⟩, hm.1.2⟩, hm.2⟩

/-- Below the first offset a canonical space may list, every byte reads 0. -/
theorem read_below {limit : Nat} : ∀ {m : Memory} {lo a : Nat}, wfFrom limit lo m = true → a < lo → m.read a = 0#8
  | [], _, _, _, _ => rfl
  | (k, v) :: t, lo, a, hm, ha => by
    simp only [wfFrom, Bool.and_eq_true, decide_eq_true_eq] at hm
    have hk : k ≠ a := by omega
    simp only [read, if_neg hk]
    exact read_below hm.2 (by omega)

/-- At and above its limit a canonical space reads 0. -/
theorem read_above {limit : Nat} : ∀ {m : Memory} {lo a : Nat}, wfFrom limit lo m = true → limit ≤ a → m.read a = 0#8
  | [], _, _, _, _ => rfl
  | (k, v) :: t, lo, a, hm, ha => by
    simp only [wfFrom, Bool.and_eq_true, decide_eq_true_eq] at hm
    have hk : k ≠ a := by omega
    simp only [read, if_neg hk]
    exact read_above hm.2 ha

theorem read_write_from {limit : Nat} (b : Byte) (a a' : Nat) :
    ∀ {m : Memory} {lo : Nat}, wfFrom limit lo m = true → (m.write a b).read a' = if a' = a then b else m.read a'
  | [], lo, _ => by
    by_cases h : a' = a
    · subst h; by_cases hb : b = 0#8 <;> simp [write, read, hb]
    · have : a ≠ a' := fun e => h e.symm
      by_cases hb : b = 0#8 <;> simp [write, read, hb, h, this]
  | (k, v) :: t, lo, hm => by
    have hm' := hm
    simp only [wfFrom, Bool.and_eq_true, decide_eq_true_eq] at hm
    rcases Nat.lt_trichotomy a k with hlt | heq | hgt
    · have hz : read ((k, v) :: t) a = 0#8 := read_below (wfFrom_mono (Nat.le_refl k)
        (by simpa [wfFrom] using ⟨⟨hm.1.1.2, by simpa using hm.1.2⟩, hm.2⟩)) hlt
      by_cases hb : b = 0#8
      · by_cases h : a' = a
        · subst h; simp [write, hlt, hb, hz]
        · simp [write, hlt, hb, h]
      · by_cases h : a' = a
        · subst h; simp [write, hlt, hb, read]
        · have : a ≠ a' := fun e => h e.symm
          simp [write, hlt, hb, h, read, this]
    · subst heq
      by_cases hb : b = 0#8
      · by_cases h : a' = a
        · subst h; simp [write, hb, read_below hm.2 (Nat.lt_succ_self a')]
        · have : a ≠ a' := fun e => h e.symm
          simp [write, hb, h, read, this]
      · by_cases h : a' = a
        · subst h; simp [write, hb, read]
        · have : a ≠ a' := fun e => h e.symm
          simp [write, hb, h, read, this]
    · have h1 : ¬ a < k := by omega
      have h2 : ¬ a = k := by omega
      simp only [write, if_neg h1, if_neg h2, read, read_write_from b a a' hm.2]
      by_cases hk : k = a'
      · have : ¬ a' = a := by omega
        simp [hk, this]
      · simp [hk]

theorem write_wfFrom {limit : Nat} {b : Byte} {a : Nat} (ha : a < limit) :
    ∀ {m : Memory} {lo : Nat}, lo ≤ a → wfFrom limit lo m = true → wfFrom limit lo (m.write a b) = true
  | [], lo, hlo, _ => by
    by_cases hb : b = 0#8 <;> simp [write, wfFrom, hb, hlo, ha]
  | (k, v) :: t, lo, hlo, hm => by
    have hm' := hm
    simp only [wfFrom, Bool.and_eq_true, decide_eq_true_eq] at hm
    rcases Nat.lt_trichotomy a k with hlt | heq | hgt
    · by_cases hb : b = 0#8
      · simpa [write, hlt, hb] using hm'
      · simp only [write, hlt, hb, if_true, if_false, wfFrom, Bool.and_eq_true, decide_eq_true_eq]
        exact ⟨⟨⟨hlo, ha⟩, by simpa using hb⟩, ⟨⟨by omega, hm.1.1.2⟩, hm.1.2⟩, hm.2⟩
    · subst heq
      by_cases hb : b = 0#8
      · simp only [write, Nat.lt_irrefl, hb, if_true, if_false]
        exact wfFrom_mono (by omega) hm.2
      · simp only [write, Nat.lt_irrefl, hb, if_true, if_false, wfFrom, Bool.and_eq_true, decide_eq_true_eq]
        exact ⟨⟨⟨hlo, ha⟩, by simpa using hb⟩, hm.2⟩
    · have h1 : ¬ a < k := by omega
      have h2 : ¬ a = k := by omega
      simp only [write, if_neg h1, if_neg h2, wfFrom, Bool.and_eq_true, decide_eq_true_eq]
      exact ⟨hm.1, write_wfFrom ha (by omega) hm.2⟩

/-- A read after a write: the byte written at its own offset, every other byte as before. -/
theorem read_write {limit : Nat} {m : Memory} (hm : m.wf limit = true) (a : Nat) (b : Byte) (a' : Nat) :
    (m.write a b).read a' = if a' = a then b else m.read a' := read_write_from b a a' hm

/-- A write inside the space keeps the canonical form. -/
theorem write_wf {limit : Nat} {m : Memory} (hm : m.wf limit = true) {a : Nat} (ha : a < limit) (b : Byte) :
    (m.write a b).wf limit = true := write_wfFrom ha (Nat.zero_le a) hm

/-- A run of writes inside the space keeps the canonical form. -/
theorem writeAll_wf {limit : Nat} : ∀ {bs : List Byte} {m : Memory} {base : Nat},
    m.wf limit = true → base + bs.length ≤ limit → (m.writeAll base bs).wf limit = true
  | [], _, _, hm, _ => hm
  | b :: bs, m, base, hm, hl => by
    simp only [List.length_cons] at hl
    exact writeAll_wf (bs := bs) (write_wf hm (by omega) b) (by omega)

/-- A read after a run of writes. -/
theorem read_writeAll {limit : Nat} (a : Nat) : ∀ {bs : List Byte} {m : Memory} {base : Nat},
    m.wf limit = true → base + bs.length ≤ limit →
    (m.writeAll base bs).read a = if base ≤ a ∧ a < base + bs.length then bs.getD (a - base) 0#8 else m.read a
  | [], m, base, _, _ => by
    have : ¬ (base ≤ a ∧ a < base) := by omega
    simp [writeAll, this]
  | b :: bs, m, base, hm, hl => by
    simp only [List.length_cons] at hl ⊢
    rw [writeAll, read_writeAll a (write_wf hm (by omega) b) (by omega), read_write hm]
    by_cases h1 : base + 1 ≤ a ∧ a < base + 1 + bs.length
    · have h2 : base ≤ a ∧ a < base + (bs.length + 1) := by omega
      obtain ⟨d, hd⟩ : ∃ d, a - base = d + 1 := ⟨a - base - 1, by omega⟩
      have h3 : a - (base + 1) = d := by omega
      simp [h1, h2, hd, h3]
    · by_cases h2 : a = base
      · subst h2
        have h3 : ¬ (a + 1 ≤ a ∧ a < a + 1 + bs.length) := by omega
        simp
      · have h3 : ¬ (base ≤ a ∧ a < base + (bs.length + 1)) := by omega
        rw [if_neg h1, if_neg h2, if_neg h3]

/-- Canonical spaces that read the same at every offset are equal data. -/
theorem ext_from {limit : Nat} : ∀ {m n : Memory} {lo : Nat},
    wfFrom limit lo m = true → wfFrom limit lo n = true → (∀ a, m.read a = n.read a) → m = n
  | [], [], _, _, _, _ => rfl
  | [], (k, v) :: t, _, _, hn, h => by
    simp only [wfFrom, Bool.and_eq_true, decide_eq_true_eq] at hn
    have := h k
    simp [read] at this
    simp [← this] at hn
  | (k, v) :: t, [], _, hm, _, h => by
    simp only [wfFrom, Bool.and_eq_true, decide_eq_true_eq] at hm
    have := h k
    simp [read] at this
    simp [this] at hm
  | (k, v) :: t, (k', v') :: t', lo, hm, hn, h => by
    have hm' := hm
    have hn' := hn
    simp only [wfFrom, Bool.and_eq_true, decide_eq_true_eq] at hm hn
    have hk : k = k' := by
      rcases Nat.lt_trichotomy k k' with hlt | heq | hgt
      · have h0 : read ((k', v') :: t') k = 0 := read_below (limit := limit) (lo := k')
          (by simpa [wfFrom] using ⟨⟨hn.1.1.2, by simpa using hn.1.2⟩, hn.2⟩) hlt
        have := h k
        rw [h0] at this
        simp [read] at this
        simp [this] at hm
      · exact heq
      · have h0 : read ((k, v) :: t) k' = 0#8 := read_below (limit := limit) (lo := k)
          (by simpa [wfFrom] using ⟨⟨hm.1.1.2, by simpa using hm.1.2⟩, hm.2⟩) hgt
        have := h k'
        rw [h0] at this
        simp [read] at this
        simp [← this] at hn
    subst hk
    have hv : v = v' := by simpa [read] using h k
    subst hv
    have ht : t = t' := ext_from hm.2 hn.2 fun a => by
      by_cases ha : k = a
      · subst ha
        rw [read_below hm.2 (Nat.lt_succ_self k), read_below hn.2 (Nat.lt_succ_self k)]
      · simpa [read, ha] using h a
    rw [ht]

theorem ext {limit : Nat} {m n : Memory} (hm : m.wf limit = true) (hn : n.wf limit = true)
    (h : ∀ a, m.read a = n.read a) : m = n := ext_from hm hn h

@[simp] theorem read_nil (a : Nat) : Memory.read [] a = 0#8 := rfl

@[simp] theorem wf_nil (limit : Nat) : Memory.wf limit [] = true := rfl

end Memory

end Sys2Proof.Machine
end

