-- ==== Sys2Proof/Laws/Ops.lean ====
section
/-! SUPPORT. What each shared operation does, said once: the buffer manager's operations byte by byte, the configurations of
93 U3, the trigger's dispatch, the invocation of a rule and the acceptance of a host operation. -/

namespace Sys2Proof.Machine

open Sys2Proof

/-! ## Slots -/

/-- The slot that is not active, in canonical form when all spaces are. -/
theorem slot_wf {s : State} (h : SpacesCanonical s) (ix : SlotIx) : Memory.wf (slotBytes s.cfg) (s.slot ix) = true := by
  cases ix <;> simp [h.1, h.2.1]

theorem activeSlot_wf {s : State} (h : SpacesCanonical s) : Memory.wf (slotBytes s.cfg) s.activeSlot = true := slot_wf h _

/-- A state with one slot replaced, over the two slot fields. -/
theorem setSlot_frame (s : State) (ix : SlotIx) (m : Memory) :
    s.setSlot ix m = { s with rx0 := (s.setSlot ix m).rx0, rx1 := (s.setSlot ix m).rx1 } := by cases ix <;> rfl

theorem setSlot_canonical {s : State} (h : SpacesCanonical s) {ix : SlotIx} {m : Memory}
    (hm : Memory.wf (slotBytes s.cfg) m = true) : SpacesCanonical (s.setSlot ix m) := by
  cases ix
  · exact ⟨hm, h.2.1, h.2.2⟩
  · exact ⟨h.1, hm, h.2.2⟩

@[simp] theorem writeActive_other (s : State) (off : Nat) (b : Byte) :
    (s.writeActive off b).slot s.active.other = s.slot s.active.other :=
  State.setSlot_slot_ne s _ (SlotIx.other_ne _)

@[simp] theorem writeActive_slot_active (s : State) (off : Nat) (b : Byte) :
    (s.writeActive off b).slot s.active = s.activeSlot.write off b := State.setSlot_slot_same s _ _

/-- `CLEAR_ACTIVE(L)` byte by byte (42_buffer_manager.md R161). -/
theorem clearActive_read {s : State} (h : SpacesCanonical s) (len : Byte) (a : Nat) :
    ((clearActive len s).slot s.active).read a =
      if a = sizeOff then len else if 2 ≤ a ∧ a < slotBytes s.cfg then 0#8 else (s.slot s.active).read a := by
  have hw := activeSlot_wf h
  have hl : payloadOff 0 + (List.replicate s.cfg.maxPayload (0#8)).length ≤ slotBytes s.cfg := by
    simp [payloadOff, slotBytes]
  have hw2 := Memory.writeAll_wf (bs := List.replicate s.cfg.maxPayload (0#8)) hw hl
  have e : (clearActive len s).slot s.active =
      (s.activeSlot.writeAll (payloadOff 0) (List.replicate s.cfg.maxPayload (0#8))).write sizeOff len :=
    State.setSlot_slot_same s _ _
  rw [e, Memory.read_write hw2, Memory.read_writeAll a hw hl]
  by_cases h0 : a = sizeOff
  · simp [h0]
  · simp only [h0, if_false, payloadOff, List.length_replicate, slotBytes, Nat.add_zero]
    by_cases h1 : 2 ≤ a ∧ a < 2 + s.cfg.maxPayload
    · have : a - 2 < s.cfg.maxPayload := by omega
      simp [h1, this]
    · simp [h1, State.activeSlot]

theorem clearActive_other (s : State) (len : Byte) :
    (clearActive len s).slot s.active.other = s.slot s.active.other :=
  State.setSlot_slot_ne s _ (SlotIx.other_ne _)

theorem clearActive_frame (s : State) (len : Byte) :
    clearActive len s = { s with rx0 := (clearActive len s).rx0, rx1 := (clearActive len s).rx1 } := setSlot_frame s _ _

theorem clearActive_canonical {s : State} (h : SpacesCanonical s) (len : Byte) : SpacesCanonical (clearActive len s) := by
  have hl : payloadOff 0 + (List.replicate s.cfg.maxPayload (0#8)).length ≤ slotBytes s.cfg := by
    simp [payloadOff, slotBytes]
  exact setSlot_canonical h
    (Memory.write_wf (Memory.writeAll_wf (activeSlot_wf h) hl) (by simp [sizeOff, slotBytes]) len)

/-- `POST` byte by byte (42_buffer_manager.md R163). -/
theorem postMailbox_read {s : State} (h : SpacesCanonical s) (a : Nat) :
    ((postMailbox s).slot s.active.other).read a = if a = sizeOff then 0#8 else (s.slot s.active.other).read a := by
  have e : (postMailbox s).slot s.active.other = (s.slot s.active.other).write sizeOff 0#8 := by
    cases hs : s.active <;> simp [postMailbox, State.writeActive, State.activeSlot, hs, SlotIx.other, State.setSlot, State.slot]
  rw [e, Memory.read_write (slot_wf h _)]

theorem postMailbox_active (s : State) : (postMailbox s).slot s.active = s.slot s.active := by
  cases hs : s.active <;> simp [postMailbox, State.writeActive, State.activeSlot, hs, SlotIx.other, State.setSlot, State.slot]

theorem postMailbox_frame (s : State) :
    postMailbox s = { s with
      mbPtr := some s.active, active := s.active.other, mbFlag := true
      rx0 := (postMailbox s).rx0, rx1 := (postMailbox s).rx1 } := by
  cases hs : s.active <;> simp [postMailbox, State.writeActive, hs, SlotIx.other, State.setSlot]

theorem postMailbox_canonical {s : State} (h : SpacesCanonical s) : SpacesCanonical (postMailbox s) := by
  have h' : SpacesCanonical { s with mbPtr := some s.active, active := s.active.other, mbFlag := true } := h
  exact setSlot_canonical h' (Memory.write_wf (slot_wf h' _) (by simp [sizeOff, slotBytes]) 0#8)

/-- `LOAD_STAGING(p)` byte by byte (42_buffer_manager.md R165). -/
theorem loadStaging_read {s : State} (h : SpacesCanonical s) (p : Packet) (a : Nat) :
    (loadStaging p s).txs.read a =
      if a = sizeOff then p.size else if a = typeOff then p.type
      else if a < slotBytes s.cfg then p.payload.getD (a - 2) 0#8 else s.txs.read a := by
  have hw1 := Memory.write_wf h.2.2 (a := sizeOff) (by simp [sizeOff, slotBytes]) p.size
  have hw2 := Memory.write_wf hw1 (a := typeOff) (by simp [typeOff, slotBytes]; omega) p.type
  have hl : payloadOff 0 + (payloadArray p s.cfg.maxPayload).length ≤ slotBytes s.cfg := by
    simp [payloadOff, slotBytes, payloadArray]
  simp only [loadStaging]
  rw [Memory.read_writeAll a hw2 hl, Memory.read_write hw1, Memory.read_write h.2.2]
  clear hw1 hw2 hl
  simp only [payloadArray, payloadOff, List.length_map, List.length_range, slotBytes, sizeOff, typeOff, Nat.add_zero]
  by_cases h1 : 2 ≤ a ∧ a < 2 + s.cfg.maxPayload
  · have h2 : a - 2 < s.cfg.maxPayload := by omega
    have h3 : ¬ a = 0 := by omega
    have h4 : ¬ a = 1 := by omega
    simp [h1, h2, h3, h4]
  · by_cases h3 : a = 0
    · simp [h3]
    · by_cases h4 : a = 1
      · simp [h4]
      · have h5 : ¬ a < 2 + s.cfg.maxPayload := by omega
        simp [h3, h4, h5]

theorem loadStaging_frame (s : State) (p : Packet) : loadStaging p s = { s with txs := (loadStaging p s).txs } := rfl

theorem loadStaging_canonical {s : State} (h : SpacesCanonical s) (p : Packet) : SpacesCanonical (loadStaging p s) := by
  have hw1 := Memory.write_wf h.2.2 (a := sizeOff) (by simp [sizeOff, slotBytes]) p.size
  have hw2 := Memory.write_wf hw1 (a := typeOff) (by simp [typeOff, slotBytes]; omega) p.type
  exact ⟨h.1, h.2.1, Memory.writeAll_wf hw2
    (by simp [payloadOff, slotBytes, payloadArray, loadStaging])⟩

/-! ## Sizes and ends -/

/-- A frame carries at most `2 * MAX_PAYLOAD` payload bytes on the wire, so no counter wraps (10_state.md R22). -/
theorem wirePayload_le (m : Memory) : wirePayload m ≤ 2 * (m.read sizeOff).toNat := by
  unfold wirePayload; split <;> omega

theorem size_le_wirePayload (m : Memory) : (m.read sizeOff).toNat ≤ wirePayload m := by
  unfold wirePayload; split <;> omega

theorem rxEnd_lt (s : State) : s.rxEnd < 600 := by
  have := wirePayload_le s.activeSlot
  have := (s.activeSlot.read sizeOff).isLt
  unfold State.rxEnd rxOverhead; omega

theorem txEnd_lt (s : State) : s.txEnd < 600 := by
  have := wirePayload_le s.txs
  have := (s.txs.read sizeOff).isLt
  unfold State.txEnd txOverhead; omega

theorem isEccType_iff (t : Byte) : isEccType t = true ↔ t = 0x01#8 ∨ t = 0x03#8 := by simp [isEccType]

/-! ## Configurations no rule reaches -/

/-- A state is in none of the configurations of 93_implementation_defined.md U3. -/
theorem unreachable_none_iff (s : State) : s.unreachable = none ↔
    ¬ (s.mode = .receiving ∧ s.counter = 0#16) ∧ ¬ (s.mode = .receiving ∧ s.activeSlot.read sizeOff = 0#8) ∧
    ¬ ((s.mode = .idle ∨ s.mode.isTest = true) ∧ s.counter ≠ 0#16) ∧ ¬ (s.mbFlag = true ∧ s.mbPtr = none) ∧
    ¬ (s.mbPtr = some s.active) ∧ SizesBounded s ∧
    ¬ (s.mode = .receiving ∧ 2 ≤ s.counter.toNat ∧ s.rxEnd ≤ s.counter.toNat) := by
  unfold State.unreachable
  constructor
  · intro h
    split at h; · cases h
    split at h; · cases h
    split at h; · cases h
    split at h; · cases h
    split at h; · cases h
    split at h; · cases h
    split at h; · cases h
    rename_i h1 h2 h3 h4 h5 h6 h7
    exact ⟨h1, h2, h3, h4, h5, ⟨by omega, by omega, by omega⟩, h7⟩
  · rintro ⟨h1, h2, h3, h4, h5, h6, h7⟩
    have h6' : ¬ (s.cfg.maxPayload < (s.rx0.read sizeOff).toNat ∨ s.cfg.maxPayload < (s.rx1.read sizeOff).toNat
      ∨ s.cfg.maxPayload < (s.txs.read sizeOff).toNat) := by
      obtain ⟨a, b, c⟩ := h6; omega
    rw [if_neg h1, if_neg h2, if_neg h3, if_neg h4, if_neg h5, if_neg h6', if_neg h7]

/-- The invariant rules those configurations out. -/
theorem Inv.unreachable_none {s : State} (h : Inv s) : s.unreachable = none := by
  obtain ⟨h1, h2, h3, -, h5, -⟩ := h
  refine (unreachable_none_iff s).2 ⟨?_, ?_, ?_, ?_, h5.1, h1, ?_⟩
  · rintro ⟨hm, hc⟩
    rcases (h3 hm).2 with h | h
    · rw [hc] at h; exact absurd h (by decide)
    · rw [hc] at h; exact absurd h.1 (by decide)
  · rintro ⟨hm, hz⟩
    have := (h3 hm).1
    rw [hz] at this; exact absurd this (by decide)
  · rintro ⟨hm, hc⟩; exact hc (h2 hm)
  · rintro ⟨hf, hp⟩; exact h5.2 hf hp
  · rintro ⟨hm, hc, he⟩
    rcases (h3 hm).2 with h | h
    · rw [h] at hc; exact absurd hc (by decide)
    · omega

/-! ## Dispatch, invocation, acceptance -/

/-- The dispatch of 30_encoding.md R98. -/
theorem handlerRule_eq (s : State) : s.handlerRule = some (match s.mode with
    | .idle => if validLength s.cfg s.nextUnit then .tIdleStart else .tIdleFramingError
    | .receiving =>
      if s.counter = 1#16 then .tRxType else if isEccType (s.activeSlot.read typeOff) then .tRxDataEcc else .tRxDataRaw
    | .transmitting => if s.counter.toNat < s.txEnd then .tTxEmit else .tTxFinish
    | .testZero => .tTestZero
    | .testOne => .tTestOne
    | .testAlternating => .tTestAlt) := by
  unfold State.handlerRule State.handlerKey State.condBits
  cases s.mode
  case idle => by_cases h : validLength s.cfg s.nextUnit = true <;> simp [h, decode, decodeT, Mode.code]
  case receiving =>
    by_cases h : s.counter = 1#16
    · simp [h, decode, decodeT, Mode.code]
    · by_cases h' : isEccType (s.activeSlot.read typeOff) = true <;> simp [h, h', decode, decodeT, Mode.code]
  case transmitting => by_cases h : s.counter.toNat < s.txEnd <;> simp [h, decode, decodeT, Mode.code]
  all_goals simp [decode, decodeT, Mode.code]

/-- Everything the invocation of a rule can do when it answers a next state. -/
theorem invoke_next {i : Instr} {body : State → State} {s t : State} (h : invoke i body s = .next t) :
    s.unreachable = none ∧
    ((s.trigPend = false ∧ t = s) ∨ (s.trigPend = true ∧ s.busy = true ∧ t = s) ∨
     (s.trigPend = true ∧ s.busy = false ∧ s.handlerRule = some i ∧ t = body s.enterHandler)) := by
  unfold invoke at h
  split at h
  · cases h
  · rename_i hu
    refine ⟨hu, ?_⟩
    split at h
    · rename_i ht
      unfold withBus at h
      split at h
      · rename_i hb
        cases h; exact .inr (.inl ⟨ht, hb, rfl⟩)
      · rename_i hb
        split at h
        · rename_i hr
          cases h; exact .inr (.inr ⟨ht, by simpa using hb, hr, rfl⟩)
        · cases h
    · rename_i ht
      cases h; exact .inl ⟨by simpa using ht, rfl⟩

/-- An invocation that may run runs the rule the dispatch selects. -/
theorem invoke_run {i : Instr} {body : State → State} {s : State} (h : MayInvoke s) (hr : s.handlerRule = some i) :
    invoke i body s = .next (body s.enterHandler) := by
  obtain ⟨h1, h2, h3, -⟩ := h
  simp [invoke, withBus, h1, h2, h3, hr]

theorem accept_ready {s : State} (h : s.fgq = []) (k : Result) : accept s k = k := by
  simp [accept, State.ready, h]

theorem accept_hold {s : State} (h : s.fgq ≠ []) (k : Result) : accept s k = .next s := by
  have : s.fgq.isEmpty = false := by simpa using h
  simp [accept, State.ready, this]

/-- Everything an acceptance can do when it answers a next state. -/
theorem accept_next {s t : State} {k : Result} (h : accept s k = .next t) : (s.fgq ≠ [] ∧ t = s) ∨ (s.fgq = [] ∧ k = .next t) := by
  by_cases hq : s.fgq = []
  · exact .inr ⟨hq, by rwa [accept_ready hq] at h⟩
  · rw [accept_hold hq] at h; cases h; exact .inl ⟨hq, rfl⟩

/-- The entry of an invocation keeps the bus idle. -/
theorem enterHandler_idle {s : State} (h : BusIdle s) : BusIdle s.enterHandler := h

/-- `RX_COMPLETE` with the bus idle, through `POST` (43_receive_deframer.md R186). -/
theorem rxComplete_idle {s : State} (h : BusIdle s) :
    rxComplete s = (postMailbox (s.afterBus s.cfg.seqFifoReset)).goTo .idle 0#16 := by
  rw [rxComplete, seqWords_idle _ h]

end Sys2Proof.Machine
end

