-- ==== Sys2Proof/Laws/Step.lean ====
section
/-! SUPPORT. What one step can do, said once: which input takes effect, on which state, and what each kind of turn answers. -/

namespace Sys2Proof.Machine

open Sys2Proof

/-- Taking an input moves only `inputs` and `draws`. -/
theorem takeInput_frame (s : State) :
    s.takeInput.2 = { s with inputs := s.takeInput.2.inputs, draws := s.takeInput.2.draws } := by
  unfold State.takeInput; split <;> rfl

/-- With an input on the list, that input is taken and no free value is drawn. -/
theorem takeInput_cons {s : State} {inp : Input} {rest : List Input} (h : s.inputs = inp :: rest) :
    s.takeInput = (inp, { s with inputs := rest }) := by
  unfold State.takeInput; rw [h]

/-- A step that answers a next state is the effect of the input taken, from a state in no configuration of 93 U3. -/
theorem step_next {s t : State} (h : step s = .next t) :
    s.unreachable = none ∧ turn s.takeInput.1 s.takeInput.2 = .next t := by
  unfold step stepOnce at h
  split at h
  · cases h
  · rename_i hu
    exact ⟨hu, h⟩

theorem step_turn {s : State} (h : s.unreachable = none) : step s = turn s.takeInput.1 s.takeInput.2 := by
  unfold step stepOnce; rw [h]

theorem step_cons {s : State} (h : s.unreachable = none) {inp : Input} {rest : List Input} (hi : s.inputs = inp :: rest) :
    step s = turn inp { s with inputs := rest } := by
  rw [step_turn h, takeInput_cons hi]

theorem step_unreachable {s : State} {f : Fault} (h : s.unreachable = some f) : step s = .fault f := by
  unfold step stepOnce; rw [h]

/-- The configurations of 93 U3 do not look at the environment's fields. -/
theorem unreachable_congr {s t : State} (h1 : s.cfg = t.cfg) (h2 : s.mode = t.mode) (h3 : s.counter = t.counter)
    (h4 : s.rx0 = t.rx0) (h5 : s.rx1 = t.rx1) (h6 : s.active = t.active) (h7 : s.mbPtr = t.mbPtr)
    (h8 : s.mbFlag = t.mbFlag) (h9 : s.txs = t.txs) : s.unreachable = t.unreachable := by
  have ha : s.activeSlot = t.activeSlot := by
    unfold State.activeSlot; rw [h6]; cases t.active <;> simp [h4, h5]
  unfold State.unreachable State.rxEnd
  rw [h1, h2, h3, h4, h5, h6, h7, h8, h9, ha]

theorem takeInput_unreachable (s : State) : s.takeInput.2.unreachable = s.unreachable := by
  rw [takeInput_frame s]; exact unreachable_congr rfl rfl rfl rfl rfl rfl rfl rfl rfl

/-- The operations a decoder of format H answers are those of format H. -/
theorem decodeH_format {mp : Nat} {op : Byte} {l r : List Byte} {i : Instr} (h : decodeH mp op l = .ok (i, r)) :
    i.format = .H := by
  unfold decodeH at h
  split at h
  case h_1 => unfold nibbleOperand at h; split at h; (split at h <;> cases h; rfl); cases h
  case h_2 => unfold byteOperand at h; split at h <;> cases h; rfl
  case h_3 => unfold packetOperand at h; split at h; (split at h <;> cases h; rfl); cases h
  case h_4 => cases h; rfl
  case h_5 => cases h; rfl
  case h_6 => cases h; rfl
  case h_7 => cases h; rfl
  case h_8 => unfold modeOperand at h; split at h; (split at h <;> cases h; rfl); cases h
  case h_9 => unfold wordOperand at h; split at h <;> cases h; rfl
  case h_10 => unfold wordOperand at h; split at h <;> cases h; rfl
  case h_11 =>
    unfold slotOperands at h
    split at h
    · split at h
      · cases h; rfl
      · split at h <;> cases h; rfl
    · cases h
  case h_12 => cases h

theorem decode_H_format {mp : Nat} {l r : List Byte} {i : Instr} (h : decode mp .H l = .ok (i, r)) : i.format = .H := by
  cases l with
  | nil => cases h
  | cons op l => exact decodeH_format h

/-- A decoded packet operand has `MAX_PAYLOAD` payload bytes. -/
theorem decode_H_wellFormed {mp : Nat} {l r : List Byte} {p : Packet} (h : decode mp .H l = .ok (.submit p, r)) :
    p.payload.length = mp := by
  cases l with
  | nil => cases h
  | cons op l =>
    simp only [decode, decodeH] at h
    split at h
    case h_1 => unfold nibbleOperand at h; split at h; (split at h <;> cases h); cases h
    case h_2 => unfold byteOperand at h; split at h <;> cases h
    case h_3 =>
      unfold packetOperand at h
      split at h
      · split at h
        · rename_i hl
          cases h; simpa using hl
        · cases h
      · cases h
    case h_4 => cases h
    case h_5 => cases h
    case h_6 => cases h
    case h_7 => cases h
    case h_8 => unfold modeOperand at h; split at h; (split at h <;> cases h); cases h
    case h_9 => unfold wordOperand at h; split at h <;> cases h
    case h_10 => unfold wordOperand at h; split at h <;> cases h
    case h_11 =>
      unfold slotOperands at h
      split at h
      · split at h
        · cases h
        · split at h <;> cases h
      · cases h
    case h_12 => cases h

/-- Everything a handler turn can do when it answers a next state: no trigger waits and nothing changes, the bus is held, or the
selected rule runs. -/
theorem handlerTurn_next {s t : State} (h : handlerTurn s = .next t) :
    (s.trigPend = false ∧ t = s) ∨ ∃ i, s.handlerRule = some i ∧ exec i s = .next t ∧ s.trigPend = true := by
  unfold handlerTurn at h
  split at h
  · rename_i ht
    rw [handlerRule_eq] at h ⊢
    exact .inr ⟨_, rfl, h, ht⟩
  · rename_i ht
    cases h; exact .inl ⟨by simpa using ht, rfl⟩

/-- A handler turn with a trigger waiting runs the selected rule. -/
theorem handlerTurn_run {s : State} {i : Instr} (ht : s.trigPend = true) (hr : s.handlerRule = some i) :
    handlerTurn s = exec i s := by
  unfold handlerTurn; rw [if_pos ht, hr]

/-- Everything a foreground turn can do when it answers a next state: nothing is queued or the head is not enabled, or the head
is taken off and runs. -/
theorem foregroundTurn_next {s t : State} (h : foregroundTurn s = .next t) :
    t = s ∨ ∃ m rest, s.fgq = m :: rest ∧ microEnabled s m = true ∧ exec m.instr { s with fgq := rest } = .next t := by
  unfold foregroundTurn at h
  split at h
  · cases h; exact .inl rfl
  · rename_i m rest hq
    split at h
    · rename_i he
      exact .inr ⟨m, rest, hq, he, h⟩
    · cases h; exact .inl rfl

/-- Everything the command port can do when it answers a next state: a decoded operation runs, or what stands there is none and
is ignored. -/
theorem hostTurn_next {bytes : List Byte} {s t : State} (h : hostTurn bytes s = .next t) :
    (∃ i r, decode s.cfg.maxPayload .H bytes = .ok (i, r) ∧ exec i s = .next t) ∨
    t = s ∨ (s.fgq = [] ∧ t = s.respond .nothing) := by
  unfold hostTurn at h
  split at h
  · rename_i i r hd
    exact .inl ⟨i, r, hd, h⟩
  · rcases accept_next h with ⟨_, rfl⟩ | ⟨hq, h'⟩
    · exact .inr (.inl rfl)
    · cases h'; exact .inr (.inr ⟨hq, rfl⟩)

end Sys2Proof.Machine
end

