-- ==== Sys2Proof/Laws/Handler.lean ====
section
/-! SUPPORT. A handler invocation in closed form: the entry, the unit read after it, the store into the active slot and the tail
of the payload rules; and which fields the invariant looks at. -/

namespace Sys2Proof.Machine

open Sys2Proof

/-- The unit waiting for an invocation is the one waiting before its entry. -/
@[simp] theorem enterHandler_nextUnit (s : State) : s.enterHandler.nextUnit = s.nextUnit := rfl

/-- The entry commutes with the words an invocation sends. -/
theorem enterHandler_afterBus (s : State) (ws : List Word) :
    s.enterHandler.afterBus ws = { s.afterBus ws with trigPend := false, fired := true } := by
  rw [State.afterBus_eq, State.afterBus_eq]
  obtain ⟨h1, h2⟩ := State.consume_env ws.length (s := s.enterHandler) (t := s) rfl rfl
  rw [h1, h2, State.busLog_congr ws (s := s.enterHandler) (t := s) rfl rfl]
  rfl

theorem afterBus_canonical {s : State} (h : SpacesCanonical s) (ws : List Word) : SpacesCanonical (s.afterBus ws) := by
  rw [State.afterBus_eq]; exact h

/-- `x` is `s` after the entry of an invocation and one unit read. -/
structure Entered (s x : State) : Prop where
  eq : x = { s.afterBus [s.cfg.unitReadCmd] with trigPend := false, fired := true }
  active : x.active = s.active
  cfg : x.cfg = s.cfg
  slot : ∀ ix, x.slot ix = s.slot ix
  canonical : SpacesCanonical s → SpacesCanonical x
  idle : BusIdle s → BusIdle x

/-- The unit an invocation reads, and the state after it. -/
theorem unitRead_entered {s : State} (h : MayInvoke s) : ∃ x, unitRead s.enterHandler = (s.nextUnit, x) ∧ Entered s x := by
  have hb : BusIdle s.enterHandler := h.2.2
  refine ⟨_, by rw [unitRead_idle hb, enterHandler_nextUnit], ?_⟩
  have : s.enterHandler.cfg = s.cfg := rfl
  rw [this]
  refine ⟨enterHandler_afterBus s _, by rw [State.afterBus_active]; rfl, by rw [State.afterBus_cfg]; rfl, ?_,
    fun hc => ?_, fun hb => State.afterBus_idle (s := s.enterHandler) hb _⟩
  · intro ix; simp; cases ix <;> rfl
  · exact afterBus_canonical (s := s.enterHandler) hc _

theorem writeActive_frame (s : State) (o : Nat) (b : Byte) :
    s.writeActive o b = { s with rx0 := (s.writeActive o b).rx0, rx1 := (s.writeActive o b).rx1 } := setSlot_frame _ _ _

/-- A byte stored into the active slot, byte by byte. -/
theorem writeActive_read {s : State} (h : SpacesCanonical s) (o : Nat) (b : Byte) (a : Nat) :
    ((s.writeActive o b).slot s.active).read a = if a = o then b else (s.slot s.active).read a := by
  rw [writeActive_slot_active, Memory.read_write (activeSlot_wf h)]; rfl

theorem writeActive_canonical {s : State} (h : SpacesCanonical s) {o : Nat} (ho : o < slotBytes s.cfg) (b : Byte) :
    SpacesCanonical (s.writeActive o b) := setSlot_canonical h (Memory.write_wf (activeSlot_wf h) ho b)

/-- The half of a byte that a nibble goes to (30_encoding.md R101). -/
theorem nibbleInByte_eq (off : Nat) (n : Nibble) :
    nibbleInByte off n = if off % 2 = 1 then (n.setWidth 8) <<< 4 else n.setWidth 8 := by
  unfold nibbleInByte; split
  · revert n; decide
  · rfl

/-- The store of a payload byte and the tail of the payload rules (43_receive_deframer.md R184 to R186) after an entry and a unit
read: the byte stored, and either the next position of the frame or its completion. -/
theorem rxAdvance_entered {s X : State} (R : Entered s X) (hb : BusIdle s) (hc : SpacesCanonical s) (o : Nat) (b : Byte)
    (ho : o < slotBytes s.cfg) (e : Nat) (hcn : s.counter.toNat + 1 < 65536) :
   let t := rxAdvance e (X.writeActive o b)
   (∀ a, (t.slot s.active).read a = if a = o then b else (s.slot s.active).read a) ∧
   (if s.counter.toNat + 1 < e then
      t = { s.afterBus [s.cfg.unitReadCmd] with
          trigPend := false, fired := true, counter := s.counter + 1#16, rx0 := t.rx0, rx1 := t.rx1 } ∧
        t.slot s.active.other = s.slot s.active.other
      else
        t = { s.afterBus (s.cfg.unitReadCmd :: s.cfg.seqFifoReset) with
          trigPend := false, fired := true, mode := .idle, counter := 0#16, mbPtr := some s.active, mbFlag := true
          active := s.active.other, rx0 := t.rx0, rx1 := t.rx1 } ∧
        (t.slot s.active.other).read sizeOff = 0#8 ∧
        (∀ a, a ≠ sizeOff → (t.slot s.active.other).read a = (s.slot s.active.other).read a)) := by
  have hf := writeActive_frame X o b
  have hoth := writeActive_other X o b
  have hd := writeActive_read (R.canonical hc) o b
  have hcan : SpacesCanonical (X.writeActive o b) := by
    refine setSlot_canonical (R.canonical hc) ?_
    exact Memory.write_wf (activeSlot_wf (R.canonical hc)) (by rw [R.cfg]; exact ho) b
  have hbi : BusIdle (X.writeActive o b) := by rw [hf]; exact R.idle hb
  have hact : (X.writeActive o b).active = s.active := by rw [hf]; exact R.active
  have hcfg : (X.writeActive o b).cfg = s.cfg := by rw [hf]; exact R.cfg
  have hctr : (X.writeActive o b).counter = s.counter := by rw [hf, R.eq]; simp
  rw [R.active, R.slot] at hoth
  simp only [R.active, R.slot] at hd
  have hn : (s.counter + 1#16).toNat = s.counter.toNat + 1 := by
    rw [BitVec.toNat_add]; simp; omega
  generalize hW : X.writeActive o b = W at *
  intro t
  by_cases hlt : s.counter.toNat + 1 < e
  · have et : t = { W with counter := s.counter + 1#16 } := by
      show rxAdvance e W = _
      unfold rxAdvance
      simp only [hctr, hn]
      rw [if_neg (by omega)]
    rw [if_pos hlt]
    refine ⟨fun a => by rw [et]; exact hd a, ?_, by rw [et]; exact hoth⟩
    rw [et, hf, R.eq]
  · have et : t = (postMailbox (({ W with counter := s.counter + 1#16 } : State).afterBus s.cfg.seqFifoReset)).goTo .idle 0#16 := by
      show rxAdvance e W = _
      unfold rxAdvance
      simp only [hctr, hn]
      rw [if_pos (by omega), rxComplete_idle (s := { W with counter := s.counter + 1#16 }) hbi]
      simp only [hcfg]
    rw [if_neg hlt]
    have key : ∀ Y : State, SpacesCanonical Y → Y.active = s.active → (∀ ix, Y.slot ix = W.slot ix) →
       t = (postMailbox Y).goTo .idle 0#16 → 
       (∀ a, (t.slot s.active).read a = if a = o then b else (s.slot s.active).read a) ∧
       t = { Y with mode := .idle, counter := 0#16, mbPtr := some s.active, mbFlag := true
                    active := s.active.other, rx0 := t.rx0, rx1 := t.rx1 } ∧
       (t.slot s.active.other).read sizeOff = 0#8 ∧
        (∀ a, a ≠ sizeOff → (t.slot s.active.other).read a = (s.slot s.active.other).read a) := by
      intro Y hY hYa hYs hT
      have p1 := postMailbox_read hY
      have p2 := postMailbox_active Y
      have p3 := postMailbox_frame Y
      rw [hYa, hYs] at p2
      simp only [hYa, hYs] at p1
      rw [hT]
      refine ⟨fun a => ?_, ?_, ?_, ?_⟩
      · show ((postMailbox Y).slot s.active).read a = _
        rw [p2]; exact hd a
      · show _ = _
        rw [p3]; simp [State.goTo, hYa]
      · exact (p1 _).trans (by simp)
      · intro a ha; refine (p1 _).trans ?_; rw [if_neg ha, hoth]
    obtain ⟨k1, k2, k3, k4⟩ := key _ (afterBus_canonical (s := { W with counter := s.counter + 1#16 }) hcan s.cfg.seqFifoReset)
      (by simp [hact]) (by intro ix; simp; cases ix <;> rfl) et
    refine ⟨k1, ?_, k3, k4⟩
    rw [k2]
    have q1 : W.responses = (s.afterBus [s.cfg.unitReadCmd]).responses := by rw [hf, R.eq]
    have q2 : W.draws = (s.afterBus [s.cfg.unitReadCmd]).draws := by rw [hf, R.eq]
    obtain ⟨c1, c2⟩ := State.consume_env s.cfg.seqFifoReset.length (s := { W with counter := s.counter + 1#16 }) (t := s.afterBus [s.cfg.unitReadCmd]) q1 q2
    rw [State.afterBus_cons, State.afterBus_eq { W with counter := s.counter + 1#16 }, State.afterBus_eq (s.afterBus [s.cfg.unitReadCmd]), c1, c2,
      State.busLog_congr s.cfg.seqFifoReset (s := { W with counter := s.counter + 1#16 }) (t := s.afterBus [s.cfg.unitReadCmd]) q1 q2]
    rw [hf, R.eq]


/-- The invariant looks at these fields only, and a lowered mailbox flag keeps it. -/
theorem Inv.congr {s t : State} (h : Inv s) (h1 : t.cfg = s.cfg) (h2 : t.mode = s.mode) (h3 : t.counter = s.counter)
    (h4 : t.rx0 = s.rx0) (h5 : t.rx1 = s.rx1) (h6 : t.active = s.active) (h7 : t.mbPtr = s.mbPtr)
    (h8 : t.mbFlag = true → s.mbFlag = true) (h9 : t.txs = s.txs) (h10 : t.busy = s.busy) (h11 : t.inFlight = s.inFlight)
    (h12 : t.fgq.all (microAdmitted s.cfg) = true) : Inv t := by
  obtain ⟨a1,a2,a3,a4,a5,a6,a7,a8,a9⟩ := h
  have ha : t.activeSlot = s.activeSlot := by
    unfold State.activeSlot; rw [h6]; cases s.active <;> simp [h4, h5]
  have hr : t.rxEnd = s.rxEnd := by unfold State.rxEnd; rw [ha]
  have ht : t.txEnd = s.txEnd := by unfold State.txEnd; rw [h9]
  refine ⟨by unfold SizesBounded; rw [h1,h4,h5,h9]; exact a1, by unfold CounterZeroOutsideFrames; rw [h2,h3]; exact a2,
    by unfold ReceivingInFrame; rw [h2,h3,ha,hr]; exact a3, by unfold TransmittingInFrame; rw [h2,h3,ht]; exact a4,
    ⟨by rw [h7,h6]; exact a5.1, fun hf => by rw [h7]; exact a5.2 (h8 hf)⟩, by unfold BusIdle; rw [h10,h11]; exact a6,
    by unfold SpacesCanonical; rw [h1,h4,h5,h9]; exact a7, by unfold QueueAdmitted; rw [h1]; exact h12, by rw [h1]; exact a9⟩


end Sys2Proof.Machine
end

