-- ==== Sys2Proof/Tests/Slice0.lean ====
section
/-! SUPPORT. The model's own tests: ill-formed operations refused, words written out from the tables of 30_encoding.md, the
vectors of 95_test_vectors.md (the number of the vector stands before each), and for every obligation with hypotheses a
state that meets them. Expected values are the spec's. -/

namespace Sys2Proof.Machine.Tests

open Sys2Proof Sys2Proof.Machine

/-! ## Helpers -/

/-- The default parameters with a payload of two bytes. -/
def tiny : Config := { Config.defaults with maxPayload := 2 }

/-- Reset with those parameters and five answers of the peer waiting. -/
def base : State := { State.resetWith tiny with responses := [0x0001, 0x0002, 0x0003, 0x0004, 0x0005] }

/-- Reset with the default parameters, a trigger waiting and the peer's answers given. -/
def waiting (responses : List Word) : State := { State.reset with trigPend := true, responses := responses }

/-- In `Receiving`, slot 0 active with the fields given. -/
def receiving (counter : Word) (slot : Memory) (responses : List Word) : State :=
  { waiting responses with mode := .receiving, counter := counter, rx0 := slot }

/-- In `Transmitting` with the staging buffer given. -/
def transmitting (counter : Word) (txs : Memory) : State :=
  { waiting [0, 0, 0, 0] with mode := .transmitting, counter := counter, txs := txs }

/-- In a test state. -/
def testing (m : Mode) : State := { waiting [0] with mode := m }

/-- `{size 3, type 03, payload AB CD EF}` of section 2.8. -/
def eccFrame : Memory := [(0, 3), (1, 3), (2, 0xAB), (3, 0xCD), (4, 0xEF)]

/-- `{size 5, type 00, payload 01 02 03 04 05}` of section 2.8. -/
def serialFrame : Memory := [(0, 5), (2, 1), (3, 2), (4, 3), (5, 4), (6, 5)]

/-- The result is a next state of which the test holds. -/
def nextIs (r : Result) (test : State → Bool) : Bool :=
  match r with
  | .next t => test t
  | .fault _ => false
  | .refused _ => false

/-- The result is the fault. -/
def faults (r : Result) (f : Fault) : Bool :=
  match r with
  | .fault g => g == f
  | .next _ => false
  | .refused _ => false

/-- The widths and outgoing words of a trace. -/
def sent (t : State) : List (Nat × Word) := t.trace.map fun x => (x.width, x.out)

/-- The bytes decode in the format to the operation and nothing is left. -/
def reads (f : Format) (bytes : List Byte) (i : Instr) : Bool :=
  match decode 2 f bytes with
  | .ok (j, r) => j == i && r.isEmpty
  | .error _ => false

/-- The bytes are refused for the reason. -/
def refuses (f : Format) (bytes : List Byte) (e : DecodeError) : Bool :=
  match decode 2 f bytes with
  | .ok _ => false
  | .error e' => e' == e

/-! ## Ill-formed operations -/

theorem test_illformed_submit : Instr.wellFormed 2 (.submit { size := 0, type := 0, payload := [1] }) = false := by decide
theorem test_illformed_claim : Instr.wellFormed 2 (.claim { size := 0, type := 0, payload := [1, 2, 3] }) = false := by decide
theorem test_illformed_loadStaging : Instr.wellFormed 2 (.loadStaging { size := 0, type := 0, payload := [] }) = false := by
  decide
theorem test_illformed_seq : Instr.wellFormed 2 (.seq (List.replicate 256 0)) = false := by decide +kernel
theorem test_wellformed_submit : Instr.wellFormed 2 (.submit { size := 9, type := 9, payload := [1, 2] }) = true := by decide

/-! ## Words written out from 30_encoding.md -/

/-- R97, the codec and query operations. -/
theorem test_decode_H_queries :
    reads .H [0x01, 0x07] (.encodeNibble 7) && reads .H [0x02, 0x97] (.decodeNibble 0x97) &&
    reads .H [0x11] .pollReceived && reads .H [0x12] .isIdle && reads .H [0x13] .liveness &&
    reads .H [0x18, 0x01, 0x00, 0x41] (.peek .slot1 0x0041) && reads .H [0x18, 0x00, 0x12, 0x34] (.peek .slot0 0x1234) := by
  decide

/-- R97, the operations that act. -/
theorem test_decode_H_actions :
    reads .H [0x10, 0x02, 0x03, 0xAB, 0xCD] (.submit { size := 2, type := 3, payload := [0xAB, 0xCD] }) &&
    reads .H [0x14] .reset && reads .H [0x15, 0x02] (.enterTestMode 2) && reads .H [0x15, 0x03] (.enterTestMode 3) &&
    reads .H [0x16, 0xC6, 0x23] (.setRegister 0xC623) && reads .H [0x17, 0x06, 0x40] (.setFrequency 0x0640) := by
  decide

/-- R98, the `STATE` code in bits 2:0 and the condition in bits 4:3. -/
theorem test_decode_T :
    reads .T [0b01000] .tIdleStart && reads .T [0b00000] .tIdleFramingError && reads .T [0b00001] .tRxType &&
    reads .T [0b01001] .tRxDataRaw && reads .T [0b10001] .tRxDataEcc && reads .T [0b00010] .tTxEmit &&
    reads .T [0b01010] .tTxFinish && reads .T [0b00011] .tTestZero && reads .T [0b00100] .tTestOne &&
    reads .T [0b00101] .tTestAlt := by
  decide

/-- R99, the width in bit 0 and the use in bits 2:1. -/
theorem test_decode_B :
    reads .B [0b000, 0xA5] (.xfer8 0xA5) && reads .B [0b001, 0xB8, 0xAA] (.xfer16 0xB8AA) &&
    reads .B [0b010, 0xFF] (.write8 0xFF) && reads .B [0b011, 0xCA, 0x81] (.write16 0xCA81) &&
    reads .B [0b100] .read8 && reads .B [0b101] .read16 := by
  decide

/-- R99, the micro-operations. -/
theorem test_decode_M :
    reads .M [0x00, 0x82, 0x39] (.w 0x8239) &&
    reads .M [0x01, 0x01, 0x00, 0x77, 0x00] (.claim { size := 1, type := 0, payload := [0x77, 0] }) := by
  decide

/-- R105, the row numbers of format I. -/
theorem test_decode_I :
    reads .I [0x00, 0x0B] (.enc 0xB) && reads .I [0x01, 0x4A] (.syn 0x4A) && reads .I [0x02, 0x0E] (.errpos 0xE) &&
    reads .I [0x03, 0x4A] (.dec 0x4A) && reads .I [0x04] .unitRead && reads .I [0x05, 0x4B] (.unitWrite 0x4B) &&
    reads .I [0x06, 0x02, 0xCA, 0x81, 0xCA, 0x83] (.seq [0xCA81, 0xCA83]) && reads .I [0x07, 0x05] (.clearActive 5) &&
    reads .I [0x08] .post && reads .I [0x09] .take &&
    reads .I [0x0A, 0x02, 0x01, 0x10, 0x20] (.loadStaging { size := 2, type := 1, payload := [0x10, 0x20] }) &&
    reads .I [0x0B] .rxComplete && reads .I [0x0C, 0x00, 0x0A] (.txbyte 10) := by
  decide

/-- R102 and H31: an `op` of no operation, and operands that are no operands. -/
theorem test_decode_refuses :
    refuses .H [] .noKey && refuses .H [0x00] (.unknownOp 0x00) && refuses .H [0x03] (.unknownOp 0x03) &&
    refuses .H [0x19] (.unknownOp 0x19) && refuses .H [0xFF] (.unknownOp 0xFF) && refuses .H [0x01, 0x10] .operandTooWide &&
    refuses .H [0x15, 0x04] .operandTooWide && refuses .H [0x18, 0x02, 0, 0] .operandTooWide &&
    refuses .H [0x10, 1, 1, 1] .operandsMissing && refuses .H [0x16, 0xC6] .operandsMissing &&
    refuses .T [0x06] (.unknownKey .T 0x06) && refuses .T [0x07] (.unknownKey .T 0x07) &&
    refuses .B [0x06] (.unknownKey .B 0x06) && refuses .M [0x02] (.unknownKey .M 0x02) &&
    refuses .I [0x0D] (.unknownKey .I 0x0D) := by
  decide

/-! ## The codec, sections 2.1 to 2.3 -/

/-- Section 2.1. -/
theorem test_enc_all :
    encTab Config.defaults = [0x00, 0xE1, 0xD2, 0x33, 0xB4, 0x55, 0x66, 0x87, 0x78, 0x99, 0xAA, 0x4B, 0xCC, 0x2D, 0x1E, 0xFF] := by
  decide

/-- Section 2.3, row `4x`. -/
theorem test_dec_row_4 :
    ((decTab Config.defaults).drop 0x40).take 16 =
      [0x40, 0xA1, 0x92, 0x7B, 0xF4, 0x15, 0x26, 0xC7, 0x38, 0xDB, 0xEB, 0x0B, 0x8C, 0x6D, 0x5E, 0xBB] := by
  decide +kernel

theorem test_default_matrices : Config.defaults.wf = true := by decide

/-- Section 2.1, `v = B`. -/
theorem test_enc : nextIs (exec (.enc 0xB) base) (fun t => t.resp == .byte 0x4B) = true := by decide
/-- Section 2.2, `SYN(4A) = E`. -/
theorem test_syn : nextIs (exec (.syn 0x4A) base) (fun t => t.resp == .nibble 0xE) = true := by decide
/-- Section 2.2, syndrome 8 is row 7, syndrome 3 is none. -/
theorem test_errpos :
    (nextIs (exec (.errpos 8) base) (fun t => t.resp == .position (some 7)) &&
     nextIs (exec (.errpos 3) base) (fun t => t.resp == .position none)) = true := by decide
/-- Section 2.2, `DEC(4A) = EB`; two flipped bits, `DEC(5A) = FA`. -/
theorem test_dec :
    (nextIs (exec (.dec 0x4A) base) (fun t => t.resp == .byte 0xEB) &&
     nextIs (exec (.dec 0x5A) base) (fun t => t.resp == .byte 0xFA)) = true := by decide
/-- H1. -/
theorem test_encodeNibble : nextIs (exec (.encodeNibble 7) base) (fun t => t.resp == .byte 0x87) = true := by decide
/-- H2, H3. -/
theorem test_decodeNibble :
    (nextIs (exec (.decodeNibble 0x97) base) (fun t => t.resp == .byte 0x17) &&
     nextIs (exec (.decodeNibble 0x86) base) (fun t => t.resp == .byte 0xE7)) = true := by decide

/-! ## The bus, section 2.5 -/

/-- B1: the bits of `B8AA` on `SDO`, first to last. -/
theorem test_xfer16_bits :
    (InFlight.run 0x0000 16 (InFlight.start 16 0xB8AA)).driven =
      [true, false, true, true, true, false, false, false, true, false, true, false, true, false, true, false] := by decide
/-- R141 on the pins: after five bits of `B8AA` (`1011 1`) `SDO` keeps the last bit driven, the next drive brings the sixth bit
(0) with no pulse yet, and then the pulse begins. -/
theorem test_pins :
    (let t := InFlight.run 0 5 (InFlight.start 16 0xB8AA)
     let pins := fun u : InFlight => let p : State := { base with inFlight := some u }; (p.sel, p.sdo, p.sck)
     pins (InFlight.start 16 0xB8AA) == (true, none, false) && pins t == (true, some true, false) && t.pulses == 5 &&
     pins t.drive == (true, some false, false) && pins t.drive.pulseStart == (true, some false, true)) = true := by decide
/-- B1. -/
theorem test_xfer16 :
    nextIs (exec (.xfer16 0xB8AA) { base with responses := [0x0000] })
      (fun t => t.resp == .word 0 && t.trace == [⟨16, 0xB8AA, 0⟩] && !t.busy && t.responses == []) = true := by decide
/-- B2, the bits and the result. -/
theorem test_xfer8 :
    ((InFlight.run 0x003C 8 (InFlight.start 8 0x00A5)).driven == [true, false, true, false, false, true, false, true] &&
     nextIs (exec (.xfer8 0xA5) { base with responses := [0x003C] })
      (fun t => t.resp == .byte 0x3C && t.trace == [⟨8, 0x00A5, 0x3C⟩])) = true := by decide
/-- B12. -/
theorem test_write8 :
    nextIs (exec (.write8 0xFF) base) (fun t => sent t == [(8, 0x00FF)] && t.resp == .nothing) = true := by decide
/-- B3. -/
theorem test_write16 :
    nextIs (exec (.write16 0xCA81) base) (fun t => sent t == [(16, 0xCA81)] && t.resp == .nothing) = true := by decide
/-- B5. -/
theorem test_read8 :
    nextIs (exec .read8 { base with responses := [0x007E] })
      (fun t => t.resp == .byte 0x7E && t.trace == [⟨8, 0, 0x7E⟩]) = true := by decide
/-- B4. -/
theorem test_read16 :
    nextIs (exec .read16 { base with responses := [0x1234] })
      (fun t => t.resp == .word 0x1234 && t.trace == [⟨16, 0, 0x1234⟩]) = true := by decide
/-- B7: bits 15:8 of the response are ignored. -/
theorem test_unitRead :
    nextIs (exec .unitRead { base with responses := [0xFF05] })
      (fun t => t.resp == .byte 0x05 && t.trace == [⟨16, 0xB000, 0xFF05⟩]) = true := by decide
/-- B8. -/
theorem test_unitWrite : nextIs (exec (.unitWrite 0x4B) base) (fun t => sent t == [(16, 0xB84B)]) = true := by decide
/-- B10. -/
theorem test_seq :
    nextIs (exec (.seq [0xCA81, 0xCA83]) base) (fun t => t.trace == [⟨16, 0xCA81, 1⟩, ⟨16, 0xCA83, 2⟩]) = true := by decide
/-- B11. -/
theorem test_seq_empty : nextIs (exec (.seq []) base) (fun t => t == base) = true := by decide
/-- `W(8239)`, step 8 of program P6. -/
theorem test_w : nextIs (exec (.w 0x8239) base) (fun t => sent t == [(16, 0x8239)] && t.fgq == []) = true := by decide

/-! ## The buffer manager, section 2.6 -/

/-- M1. -/
theorem test_clearActive :
    nextIs (exec (.clearActive 5) { State.reset with rx0 := [(0, 2), (1, 2), (2, 0x22), (3, 0x33)] })
      (fun t => t.rx0 == [(0, 5), (1, 2)]) = true := by decide +kernel
/-- M2. -/
theorem test_post :
    nextIs (exec .post { State.reset with rx1 := [(0, 7), (1, 2)] })
      (fun t => t.mbPtr == some .slot0 && t.active == .slot1 && t.mbFlag && t.rx1 == [(1, 2)]) = true := by decide
/-- M3. -/
theorem test_post_overwrites :
    nextIs (exec .post { State.reset with active := .slot1, mbPtr := some .slot0, mbFlag := true, rx0 := serialFrame })
      (fun t => t.mbPtr == some .slot1 && t.active == .slot0 && t.mbFlag && t.rx0.read sizeOff == 0) = true := by decide
/-- M5. -/
theorem test_take :
    nextIs (exec .take { State.reset with mbPtr := some .slot1, mbFlag := true })
      (fun t => t.resp == .slot (some .slot1) && !t.mbFlag && t.mbPtr == some .slot1) = true := by decide
/-- M6. -/
theorem test_take_none :
    nextIs (exec .take { State.reset with mbPtr := some .slot1 })
      (fun t => t.resp == .slot none && !t.mbFlag && t.mbPtr == some .slot1) = true := by decide
/-- M9: the whole array is copied. -/
theorem test_loadStaging :
    nextIs (exec (.loadStaging { size := 0, type := 2, payload := [0, 0] }) { base with txs := [(0, 3), (1, 3), (2, 0xAB), (3, 0xCD)] })
      (fun t => t.txs == [(1, 2)]) = true := by decide
/-- Step 2 of program P9, with a payload of two bytes. -/
theorem test_claim :
    nextIs (exec (.claim { size := 1, type := 0, payload := [0x77, 0] }) base)
      (fun t => t.mode == .transmitting && t.counter == 0 && t.txs == [(0, 1), (2, 0x77)]) = true := by decide
/-- Step 4 of program P6: the claim holds. -/
theorem test_claim_holds :
    nextIs (exec (.claim { size := 1, type := 0, payload := [0x77, 0] }) (testing .testOne)) (fun t => t == testing .testOne) =
      true := by decide

/-! ## The receive rules, section 2.7 -/

/-- X2. -/
theorem test_tIdleStart :
    nextIs (exec .tIdleStart { waiting [0x0040] with rx0 := [(1, 3), (2, 0x11)] })
      (fun t => t.mode == .receiving && t.counter == 1 && t.rx0 == [(0, 0x40), (1, 3)] && t.fired && !t.trigPend &&
        t.trace == [⟨16, 0xB000, 0x0040⟩]) = true := by decide +kernel
/-- X3. -/
theorem test_tIdleStart_high_bits :
    nextIs (exec .tIdleStart (waiting [0xFF40])) (fun t => t.mode == .receiving && t.rx0 == [(0, 0x40)]) = true := by
  decide +kernel
/-- X5: 65 is above `MAX_PAYLOAD`. -/
theorem test_tIdleFramingError :
    nextIs (exec .tIdleFramingError (waiting [0x0041, 0, 0]))
      (fun t => t.mode == .idle && t.counter == 0 && t.rx0 == [] && t.fired &&
        sent t == [(16, 0xB000), (16, 0xCA81), (16, 0xCA83)]) = true := by decide
/-- X4. -/
theorem test_tIdleFramingError_zero :
    nextIs (exec .tIdleFramingError (waiting [0, 0, 0]))
      (fun t => t.mode == .idle && sent t == [(16, 0xB000), (16, 0xCA81), (16, 0xCA83)]) = true := by decide
/-- X8: a type that is no type is kept. -/
theorem test_tRxType :
    nextIs (exec .tRxType (receiving 1 [(0, 5)] [0x0007]))
      (fun t => t.rx0 == [(0, 5), (1, 7)] && t.counter == 2 && t.mode == .receiving) = true := by decide
/-- X9. -/
theorem test_tRxDataRaw :
    nextIs (exec .tRxDataRaw (receiving 2 [(0, 5)] [0x0001]))
      (fun t => t.rx0 == [(0, 5), (2, 1)] && t.counter == 3 && t.mode == .receiving) = true := by decide
/-- X10. -/
theorem test_tRxDataRaw_completes :
    nextIs (exec .tRxDataRaw { receiving 6 [(0, 5), (2, 1), (3, 2), (4, 3), (5, 4)] [0x0005, 0, 0] with rx1 := [(0, 9)] })
      (fun t => t.rx0 == serialFrame && t.rx1 == [] && t.mbPtr == some .slot0 && t.active == .slot1 && t.mbFlag &&
        t.counter == 0 && t.mode == .idle && sent t == [(16, 0xB000), (16, 0xCA81), (16, 0xCA83)]) = true := by decide
/-- X13: an odd offset fills the high half. -/
theorem test_tRxDataEcc :
    nextIs (exec .tRxDataEcc (receiving 3 [(0, 3), (1, 3), (2, 0x0B)] [0x00AA]))
      (fun t => t.rx0 == [(0, 3), (1, 3), (2, 0xAB)] && t.counter == 4 && t.mode == .receiving) = true := by decide
/-- X16. -/
theorem test_tRxDataEcc_completes :
    nextIs (exec .tRxDataEcc (receiving 3 [(0, 1), (1, 1), (2, 0x0E)] [0x0087, 0, 0]))
      (fun t => t.rx0 == [(0, 1), (1, 1), (2, 0x7E)] && t.mode == .idle && t.counter == 0 && t.mbFlag) = true := by decide
/-- The tail of X11: the second completion overwrites the mailbox. -/
theorem test_rxComplete :
    nextIs (exec .rxComplete { base with active := .slot1, mbFlag := true, mbPtr := some .slot0, rx0 := [(0, 1), (2, 9)] })
      (fun t => t.mbPtr == some .slot1 && t.active == .slot0 && t.mbFlag && t.rx0 == [(2, 9)] && t.mode == .idle &&
        sent t == [(16, 0xCA81), (16, 0xCA83)]) = true := by decide

/-! ## The transmit rules, section 2.8 -/

/-- `{size 3, type 03, payload AB CD EF}`, `c = 0..A`. -/
theorem test_txbyte_ecc :
    (List.range 11).map (transmitting 0 eccFrame).txByte =
      [0xAA, 0x2D, 0xD4, 0x03, 0x03, 0x4B, 0xAA, 0x2D, 0xCC, 0xFF, 0x1E] := by decide
/-- `{size 5, type 00, payload 01 02 03 04 05}`: `end = A`, and the byte at 9. -/
theorem test_txbyte :
    ((transmitting 0 serialFrame).txEnd == 10 &&
     nextIs (exec (.txbyte 9) (transmitting 0 serialFrame)) (fun t => t.resp == .byte 5)) = true := by decide
/-- E3. -/
theorem test_tTxEmit :
    nextIs (exec .tTxEmit (transmitting 5 eccFrame)) (fun t => sent t == [(16, 0xB84B)] && t.counter == 6) = true := by decide
/-- E4. -/
theorem test_tTxEmit_last :
    nextIs (exec .tTxEmit (transmitting 10 eccFrame))
      (fun t => sent t == [(16, 0xB81E)] && t.counter == 11 && t.mode == .transmitting) = true := by decide
/-- E5. -/
theorem test_tTxFinish :
    nextIs (exec .tTxFinish (transmitting 11 eccFrame))
      (fun t => sent t == [(16, 0x8209), (16, 0x82D9), (16, 0xCA81), (16, 0xCA83)] && t.counter == 0 && t.mode == .idle &&
        t.txs == eccFrame) = true := by decide
/-- E7. -/
theorem test_tTestZero : nextIs (exec .tTestZero (testing .testZero)) (fun t => sent t == [(16, 0xB800)]) = true := by decide
/-- E8. -/
theorem test_tTestOne : nextIs (exec .tTestOne (testing .testOne)) (fun t => sent t == [(16, 0xB8FF)]) = true := by decide
/-- E9. -/
theorem test_tTestAlt :
    nextIs (exec .tTestAlt (testing .testAlternating)) (fun t => sent t == [(16, 0xB8AA)] && t.mode == .testAlternating) =
      true := by decide
/-- A rule the dispatch does not select is not run (log entry 16). -/
theorem test_notSelected : faults (exec .tTestOne (testing .testZero)) .notSelected = true := by decide

/-! ## Host operations, section 2.9 -/

/-- H5. -/
theorem test_submit :
    nextIs (exec (.submit { size := 2, type := 0, payload := [1, 2] }) base)
      (fun t => t.fgq == [.claim { size := 2, type := 0, payload := [1, 2] }, .w 0x8239] && t.mode == .idle) = true := by decide
/-- H8. -/
theorem test_submit_in_test :
    nextIs (exec (.submit { size := 0, type := 2, payload := [0, 0] }) { base with mode := .testOne })
      (fun t => t.mode == .idle && t.fgq == [.w 0xFE00, .w 0x82D9, .w 0xCA81, .w 0xCA83,
        .claim { size := 0, type := 2, payload := [0, 0] }, .w 0x8239]) = true := by decide
/-- H10, with a payload of two bytes. -/
theorem test_pollReceived :
    nextIs (exec .pollReceived { base with mbFlag := true, mbPtr := some .slot0, active := .slot1, rx0 := [(0, 2), (2, 1), (3, 2)] })
      (fun t => t.resp == .packet (some (.slot0, { size := 2, type := 0, payload := [1, 2] })) && !t.mbFlag) = true := by decide
/-- H11. -/
theorem test_pollReceived_none : nextIs (exec .pollReceived base) (fun t => t.resp == .packet none) = true := by decide
/-- H12. -/
theorem test_isIdle :
    (nextIs (exec .isIdle base) (fun t => t.resp == .bit true) &&
     nextIs (exec .isIdle (testing .testZero)) (fun t => t.resp == .bit false)) = true := by decide
/-- H13, H14. -/
theorem test_liveness :
    (nextIs (exec .liveness (transmitting 0 [])) (fun t => t.resp == .bit false && !t.fired) &&
     nextIs (exec .liveness { transmitting 0 [] with fired := true }) (fun t => t.resp == .bit true && !t.fired)) = true := by
  decide
/-- H15. -/
theorem test_liveness_idle : nextIs (exec .liveness base) (fun t => t.resp == .bit true) = true := by decide
/-- H17. -/
theorem test_reset :
    nextIs (exec .reset { receiving 4 serialFrame [] with fired := true })
      (fun t => t.mode == .idle && t.counter == 0 && t.rx0 == serialFrame && t.fired &&
        t.fgq == [.w 0xFE00, .w 0x82D9, .w 0xCA81, .w 0xCA83]) = true := by decide
/-- H20. -/
theorem test_enterTestMode :
    nextIs (exec (.enterTestMode 1) (receiving 3 serialFrame []))
      (fun t => t.mode == .testOne && t.counter == 0 && t.rx0 == serialFrame && t.fgq == [.w 0x8239]) = true := by decide
/-- H22. -/
theorem test_enterTestMode_3 : nextIs (exec (.enterTestMode 3) base) (fun t => t == base) = true := by decide
/-- H23. -/
theorem test_setRegister : nextIs (exec (.setRegister 0xC623) base) (fun t => t.fgq == [.w 0xC623]) = true := by decide
/-- H25, H27. -/
theorem test_setFrequency :
    (nextIs (exec (.setFrequency 96) base) (fun t => t.fgq == [.w 0xA060]) &&
     nextIs (exec (.setFrequency 3903) base) (fun t => t.fgq == [.w 0xAF3F])) = true := by decide
/-- H24, H28. -/
theorem test_setFrequency_outside :
    (nextIs (exec (.setFrequency 95) base) (fun t => t == base) &&
     nextIs (exec (.setFrequency 3904) base) (fun t => t == base)) = true := by decide
/-- H29. -/
theorem test_peek :
    (nextIs (exec (.peek .slot0 6) { State.reset with rx0 := serialFrame }) (fun t => t.resp == .byte 5) &&
     nextIs (exec (.peek .slot0 65) { State.reset with rx0 := serialFrame }) (fun t => t.resp == .byte 0)) = true := by decide
/-- H30. -/
theorem test_peek_outside : nextIs (exec (.peek .slot0 66) State.reset) (fun t => t == State.reset) = true := by decide

/-! ## Steps -/

/-- I1, I2. -/
theorem test_trigger :
    (nextIs (step { base with inputs := [.trigger] }) (fun t => t.trigPend) &&
     nextIs (step { base with inputs := [.trigger], trigPend := true }) (fun t => t.trigPend)) = true := by decide
/-- I3, a step. -/
theorem test_handler_step :
    nextIs (step { testing .testZero with inputs := [.handler] })
      (fun t => !t.trigPend && t.fired && sent t == [(16, 0xB800)]) = true := by decide
/-- I4. -/
theorem test_handler_waits : nextIs (step { base with inputs := [.handler] }) (fun t => t == base) = true := by decide
/-- H31, a step. -/
theorem test_unknown_op : nextIs (step { base with inputs := [.host [0x19]] }) (fun t => t == base) = true := by decide
/-- Table words of formats H, T and I. -/
theorem test_decodeTableWord :
    (decodeTableWord 8 0x14 == some .reset && decodeTableWord 8 0x03 == some .tTestZero && decodeTableWord 8 0x08 == some .post &&
     decodeTableWord 8 0x06 == some (.seq []) && decodeTableWord 8 0x0D == none) = true := by decide +kernel
/-- A table word of format H runs as the first instruction. -/
theorem test_withFetchWord :
    nextIs (step (State.reset.withFetchWord 8 0x14)) (fun t => t.fgq == [.w 0xFE00, .w 0x82D9, .w 0xCA81, .w 0xCA83]) = true := by
  decide +kernel
/-- A table word of format T runs as the first instruction. -/
theorem test_withFetchWord_T :
    nextIs (step (State.reset.withFetchWord 8 0x04)) (fun t => sent t == [(16, 0xB8FF)] && t.fired) = true := by
  decide +kernel

/-! ## Witnesses: for each obligation with hypotheses, states and operands that meet them, at the boundaries of each clause -/

/-- A state of the invariant in each mode. -/
def idleAt (u : Word) : State := waiting [u, 0, 0]

/-- SyndromeXorsSelectedRows, ErrposIsLeastMatchingRow, SingleBitErrorsAreCorrected, CodecIsLinear: the default matrices meet K1
and K2. -/
theorem witness_matrices : EccMatrices.defaults.k1 = true ∧ EccMatrices.defaults.k2 = true := by decide

/-- ErrposIsLeastMatchingRow: syndromes of the first and the last row, and one of no row. -/
theorem witness_errpos :
    EccMatrices.defaults.errPos 0xE = some 0 ∧ EccMatrices.defaults.errPos 0x8 = some 7 ∧
    EccMatrices.defaults.errPos 0x3 = none := by decide

/-- DecodeTakesThreeBranches: a byte for each branch. -/
theorem witness_decode_branches :
    EccMatrices.defaults.syn 0x4B = 0#4 ∧
    (EccMatrices.defaults.syn 0x4A ≠ 0#4 ∧ EccMatrices.defaults.errPos (EccMatrices.defaults.syn 0x4A) = some 0) ∧
    (EccMatrices.defaults.syn 0xCB ≠ 0#4 ∧ EccMatrices.defaults.errPos (EccMatrices.defaults.syn 0xCB) = some 7) ∧
    (EccMatrices.defaults.syn 0x48 ≠ 0#4 ∧ EccMatrices.defaults.errPos (EccMatrices.defaults.syn 0x48) = none) := by decide

/-- TwoBitErrorsGiveReceivedNibble: the first and the last position. -/
theorem witness_two_bits : (0 : Fin 8) ≠ (7 : Fin 8) := by decide

/-- CodecHostOperationsReturnTableEntries, SubmitQueuesClaim, PollReturnsFinishedPacket, StatusOperationsAnswer, ResetReturnsToIdle,
EnterTestModeSetsTestState, RegisterOperationsQueueOneWrite: the port is ready. -/
theorem witness_ready : base.fgq = [] ∧ (testing .testOne).fgq = [] ∧ (transmitting 4 eccFrame).fgq = [] := by decide

/-- TransactionClocksBitsMsbFirst: the two widths and the bound, and a state with nothing in flight. -/
theorem witness_widths : (8 : Nat) ≤ 16 ∧ (16 : Nat) ≤ 16 ∧ base.inFlight = none := by decide

/-- BusPrimitivesPerformOneTransaction, UnitReadReturnsLowByte, UnitWriteCarriesByte, SequenceWritesWordsInOrder,
SecondCompletionOverwritesFirst, FrameCompletionPostsAndReturnsToIdle, ForegroundWriteSendsOneWord, ClearActiveZeroesPayload,
PostSwapsSlotsAndRaisesFlag, LoadStagingCopiesPacket: the bus idle and the spaces canonical. -/
theorem witness_bus_idle :
    BusIdle base ∧ SpacesCanonical { base with rx0 := [(0, 2), (3, 0xFF)], txs := [(1, 3)] } ∧ Config.defaults.wf = true := by
  decide

/-- BusyBusHoldsRequests: a transaction in flight, in no configuration of 93 U3. -/
theorem witness_busy :
    let s := { testing .testOne with busy := true, inFlight := some (InFlight.start 16 0xB000) }
    s.busy = true ∧ s.unreachable = none ∧ Instr.format .tTestOne = .T := by decide

/-- TakeTestsAndClearsFlag, PollReturnsFinishedPacket: a finished slot, and none. -/
theorem witness_mailbox :
    let s := { base with mbFlag := true, mbPtr := some .slot1 }
    (s.mbFlag = true ∧ s.mbPtr = some .slot1 ∧ s.fgq = []) ∧ base.mbFlag = false := by decide

/-- A frame in slot 0 is finished and another is being received in slot 1. -/
def overwriting (counter : Word) : State :=
  { State.reset with
    trigPend := true, responses := [0x0077, 0, 0], inputs := [.handler], mode := .receiving, counter := counter
    active := .slot1, mbPtr := some .slot0, mbFlag := true, rx0 := [(0, 5), (2, 1)], rx1 := [(0, 1), (1, 2)] }

/-- FinishedSlotIsKeptUntilNextCompletion, StepKeepsInvariant: the step that keeps the slot. -/
theorem witness_finished_slot_kept :
    Inv (overwriting 1) ∧ (overwriting 1).mbPtr = some .slot0 ∧
    nextIs (step (overwriting 1)) (fun t => t.rx0 == [(0, 5), (2, 1)] && t.active == .slot1) = true := by decide +kernel

/-- FinishedSlotIsKeptUntilNextCompletion: the completion that makes it active. -/
theorem witness_finished_slot_reused :
    Inv (overwriting 2) ∧ nextIs (step (overwriting 2)) (fun t => t.rx0 == [(2, 1)] && t.active == .slot0) = true := by
  decide +kernel

/-- ValidLengthStartsFrame: the smallest and the largest length. -/
theorem witness_valid_length :
    (MayInvoke (idleAt 1) ∧ SpacesCanonical (idleAt 1) ∧ (idleAt 1).mode = .idle ∧ 0 < (idleAt 1).nextUnit.toNat ∧
      (idleAt 1).nextUnit.toNat ≤ (idleAt 1).cfg.maxPayload) ∧
    (MayInvoke (idleAt 64) ∧ (idleAt 64).nextUnit.toNat ≤ (idleAt 64).cfg.maxPayload) := by decide

/-- InvalidLengthIsAbsorbed: 0 and the first length above the largest. -/
theorem witness_invalid_length :
    (MayInvoke (idleAt 0) ∧ (idleAt 0).nextUnit = 0#8) ∧
    (MayInvoke (idleAt 65) ∧ (idleAt 65).cfg.maxPayload < (idleAt 65).nextUnit.toNat) := by decide

/-- TypeByteIsStored. -/
theorem witness_type_byte :
    let s := receiving 1 [(0, 5)] [3]
    MayInvoke s ∧ SpacesCanonical s ∧ s.mode = .receiving ∧ s.counter = 1#16 := by decide

/-- RawPayloadByteIsStored: inside the frame and at its last byte. -/
theorem witness_raw_payload :
    (let s := receiving 2 [(0, 5)] [1]
     MayInvoke s ∧ SpacesCanonical s ∧ 2 ≤ s.counter.toNat ∧
      (s.activeSlot.read typeOff ≠ 0x01#8 ∧ s.activeSlot.read typeOff ≠ 0x03#8) ∧
      s.counter.toNat + 1 < 2 + (s.activeSlot.read sizeOff).toNat) ∧
    (let s := receiving 6 [(0, 5), (1, 2)] [1, 0, 0]
     MayInvoke s ∧ SpacesCanonical s ∧ 2 ≤ s.counter.toNat ∧
      (s.activeSlot.read typeOff ≠ 0x01#8 ∧ s.activeSlot.read typeOff ≠ 0x03#8) ∧
      ¬ s.counter.toNat + 1 < 2 + (s.activeSlot.read sizeOff).toNat) := by decide

/-- EccCodewordIsAccumulated: an even offset inside the frame, and the last codeword at an odd offset. -/
theorem witness_ecc_payload :
    (let s := receiving 2 [(0, 3), (1, 3)] [0x4B]
     MayInvoke s ∧ SpacesCanonical s ∧ s.mode = .receiving ∧ 2 ≤ s.counter.toNat ∧ s.activeSlot.read typeOff = 0x03#8 ∧
      s.counter.toNat + 1 < 2 + 2 * (s.activeSlot.read sizeOff).toNat) ∧
    (let s := receiving 3 [(0, 1), (1, 1), (2, 0x0E)] [0x87, 0, 0]
     MayInvoke s ∧ SpacesCanonical s ∧ s.mode = .receiving ∧ 2 ≤ s.counter.toNat ∧ s.activeSlot.read typeOff = 0x01#8 ∧
      ¬ s.counter.toNat + 1 < 2 + 2 * (s.activeSlot.read sizeOff).toNat) := by decide

/-- TxbyteFollowsFrameLayout and TxbyteOutsideFrameReturnsSomeByte: the last index of an ECC frame (odd offset), the one before
it (even offset), the last of a raw frame, the last of an empty one, and the first index outside each. -/
theorem witness_txbyte :
    ((eccFrame.read sizeOff).toNat ≤ 64 ∧ (10#16).toNat < 5 + 2 * (eccFrame.read sizeOff).toNat ∧
      (transmitting 0 eccFrame).txEnd ≤ (11#16).toNat) ∧
    ((9#16).toNat < 5 + (serialFrame.read sizeOff).toNat ∧ (transmitting 0 serialFrame).txEnd ≤ (10#16).toNat) ∧
    ((4#16).toNat < 5 + (Memory.read [] sizeOff).toNat ∧ (transmitting 0 []).txEnd ≤ (5#16).toNat) := by decide

/-- TransmitEmitsOneUnit: the first and the last unit. -/
theorem witness_emit :
    (MayInvoke (transmitting 0 eccFrame) ∧ (transmitting 0 eccFrame).counter.toNat < (transmitting 0 eccFrame).txEnd) ∧
    (MayInvoke (transmitting 10 eccFrame) ∧ (transmitting 10 eccFrame).counter.toNat < (transmitting 10 eccFrame).txEnd) := by
  decide

/-- TransmitFinishRearmsReceive: the end of a frame and of an empty frame. -/
theorem witness_finish :
    (MayInvoke (transmitting 11 eccFrame) ∧ (transmitting 11 eccFrame).txEnd ≤ (transmitting 11 eccFrame).counter.toNat) ∧
    (MayInvoke (transmitting 5 []) ∧ (transmitting 5 []).txEnd ≤ (transmitting 5 []).counter.toNat) := by decide

/-- TestTonesWriteTheirPattern: each test state. -/
theorem witness_tones :
    MayInvoke (testing .testZero) ∧ MayInvoke (testing .testOne) ∧ MayInvoke (testing .testAlternating) := by decide

/-- TestStatesAreSticky: `RESET` leaves a test state, another test mode changes it. -/
theorem witness_sticky :
    Mode.isTest (testing .testOne).mode = true ∧
    nextIs (step { testing .testOne with inputs := [.host [0x14]] }) (fun t => t.mode == .idle) = true ∧
    nextIs (step { testing .testOne with inputs := [.host [0x15, 0x02]] }) (fun t => t.mode == .testAlternating) = true := by
  decide +kernel

/-- DispatchFollowsStateTable: `Receiving` with a counter of 1. -/
theorem witness_dispatch : (receiving 1 [(0, 5)] [3]).mode = .receiving ∧ 1 ≤ (receiving 1 [(0, 5)] [3]).counter.toNat := by
  decide

/-- TriggerArrivalSetsPending, UnknownOpIsIgnored, StepRunsDecodedOperation: no configuration of 93 U3 and an input waiting. -/
theorem witness_inputs :
    base.unreachable = none ∧ base.fgq = [] ∧ { base with inputs := [.trigger] }.inputs = [.trigger] ∧
    (0x19#8) ∉ ([0x01, 0x02, 0x10, 0x11, 0x12, 0x13, 0x14, 0x15, 0x16, 0x17, 0x18] : List Byte) := by decide

/-- TriggerArrivalSetsPending, CodecHostOperationsReturnTableEntries, SequenceWritesWordsInOrder: an invocation that clears the
pending trigger, a step that keeps it, a codec port driven and a queued write while `FGQ` is not empty. -/
theorem witness_pending :
    nextIs (step { testing .testOne with inputs := [.handler] }) (fun t => !t.trigPend) = true ∧
    nextIs (step { testing .testOne with inputs := [.foreground] }) (fun t => t.trigPend) = true ∧
    nextIs (step { base with fgq := [.w 1], inputs := [.encPort 0xB] }) (fun t => t.resp == .byte 0x4B) = true ∧
    nextIs (step { base with fgq := [.w 1], inputs := [.decPort 0x4A] }) (fun t => t.resp == .byte 0xEB) = true ∧
    nextIs (step { base with fgq := [.w 1], inputs := [.foreground] }) (fun t => t.fgq == [] && sent t == [(16, 1)]) = true := by
  decide +kernel

/-- StepRunsDecodedOperation: each kind of input with something to run, and each with nothing enabled. -/
theorem witness_step_inputs :
    reads .H [0x14] .reset = true ∧ reads .T [(testing .testOne).handlerKey] .tTestOne = true ∧
    (testing .testOne).unreachable = none ∧ base.trigPend = false ∧
    (let s := { base with fgq := [.w 1] }
     s.unreachable = none ∧ s.busy = false) ∧
    (let s := { base with fgq := [.claim { size := 0, type := 0, payload := [0, 0] }] }
     s.unreachable = none ∧ s.mode = .idle) ∧
    (let s := { testing .testOne with fgq := [.claim { size := 0, type := 0, payload := [] }] }
     s.unreachable = none ∧ s.mode ≠ .idle) := by decide

/-- InvocationClearsPendingAndSetsFired, StepKeepsInvariant, InvariantStatesNeverFault: a state of the invariant in each mode, here
and in the four theorems after it. -/
theorem witness_inv_idle : Inv (idleAt 1) ∧ (idleAt 1).trigPend = true := by decide
theorem witness_inv_receiving_type : Inv (receiving 1 [(0, 5)] [3]) := by decide
theorem witness_inv_receiving_last : Inv (receiving 7 [(0, 3), (1, 3)] [3]) := by decide
theorem witness_inv_transmitting : Inv (transmitting 11 eccFrame) := by decide
theorem witness_inv_test : Inv (testing .testZero) := by decide

/-- InvariantHoldsAtReset: other parameters that meet their constraints. -/
theorem witness_cfg : tiny.wf = true ∧ { Config.defaults with maxPayload := 255, preamble := 0x55 }.wf = true := by decide

/-- PortNotReadyAcceptsNothing. -/
theorem witness_not_ready : Instr.format .reset = .H ∧ { base with fgq := [.w 0] }.fgq ≠ [] := by decide

/-- SubmitQueuesClaim: a size and a type just outside and just inside, in a test state and outside one. -/
theorem witness_submit :
    ((tiny.maxPayload < (3#8).toNat ∨ 3 < (0#8).toNat) ∧ (tiny.maxPayload < (2#8).toNat ∨ 3 < (4#8).toNat)) ∧
    ((2#8).toNat ≤ tiny.maxPayload ∧ (3#8).toNat ≤ 3 ∧ Mode.isTest base.mode = false ∧
      Mode.isTest (testing .testAlternating).mode = true) := by decide

/-- ClaimAdmitsOnlyWhenIdle: `Idle`, and another state. -/
theorem witness_claim :
    SpacesCanonical base ∧ base.mode = .idle ∧ SpacesCanonical (transmitting 4 eccFrame) ∧
    (transmitting 4 eccFrame).mode ≠ .idle := by decide

/-- SubmitLeavesFrameInFlightAlone: a submit accepted while transmitting, and the foreground's turn on the held claim. -/
theorem witness_in_flight :
    let p : Packet := { size := 1, type := 0, payload := [7, 0] }
    let s := { transmitting 4 eccFrame with cfg := tiny, txs := [(0, 2), (1, 3), (2, 1)] }
    nextIs (exec (.submit p) s) (fun t => t.fgq == [.claim p, .w 0x8239]) = true ∧
    nextIs (step { s with fgq := [.claim p], inputs := [.foreground] }) (fun t => t.fgq == [.claim p]) = true ∧
    nextIs (step { s with fgq := [.w 1], inputs := [.foreground] }) (fun t => t.fgq == []) = true := by decide +kernel

/-- PeekReadsSlotByte: the last offset of a slot and the first outside it. -/
theorem witness_peek : (65#16).toNat < 2 + State.reset.cfg.maxPayload ∧ 2 + State.reset.cfg.maxPayload ≤ (66#16).toNat := by
  decide

/-- RegisterOperationsQueueOneWrite: both ends of the span, and the values next to them. -/
theorem witness_frequency :
    (base.cfg.freqMin.toNat ≤ (96#16).toNat ∧ (96#16).toNat ≤ base.cfg.freqMax.toNat) ∧
    (base.cfg.freqMin.toNat ≤ (3903#16).toNat ∧ (3903#16).toNat ≤ base.cfg.freqMax.toNat) ∧
    (95#16).toNat < base.cfg.freqMin.toNat ∧ base.cfg.freqMax.toNat < (3904#16).toNat := by decide

/-- UnreachableConfigurationsFault: a state for each clause. -/
theorem witness_unreachable :
    faults (step { base with mode := .receiving, rx0 := [(0, 1)] }) .receivingCounterZero = true ∧
    faults (step { base with mode := .receiving, counter := 1 }) .receivingSizeZero = true ∧
    faults (step { base with counter := 1 }) .counterOutsideFrame = true ∧
    faults (step { base with mode := .testOne, counter := 1 }) .counterOutsideFrame = true ∧
    faults (step { base with mbFlag := true }) .mailboxWithoutSlot = true ∧
    faults (step { base with mbPtr := some .slot0 }) .mailboxIsActive = true ∧
    faults (step { base with rx0 := [(0, 3)] }) .sizeAboveMax = true ∧
    faults (step { base with rx1 := [(0, 3)] }) .sizeAboveMax = true ∧
    faults (step { base with txs := [(0, 3)] }) .sizeAboveMax = true ∧
    faults (step { base with mode := .receiving, counter := 4, rx0 := [(0, 1)] }) .receivingPastEnd = true := by decide

/-- ContextsKeepTheirRights: a step that is an invocation and one that is none. -/
theorem witness_rights :
    { idleAt 1 with inputs := [.handler] }.takeInput.1 = .handler ∧
    { base with inputs := [.foreground] }.takeInput.1 ≠ .handler ∧
    nextIs (step { idleAt 1 with inputs := [.handler] }) (fun t => t.mode == .receiving) = true ∧
    nextIs (step { base with inputs := [.foreground] }) (fun t => t.mode == .idle) = true := by decide +kernel

/-- OnlyClaimWritesStaging: a step that changes the staging buffer. -/
theorem witness_staging :
    nextIs (step { base with
        fgq := [.claim { size := 1, type := 0, payload := [7, 0] }], inputs := [.foreground] })
      (fun t => t.txs == [(0, 1), (2, 7)] && t.fgq == []) = true := by decide

/-- DecodeInvertsEncode: a packet operand and the longest list. -/
theorem witness_wellFormed :
    Instr.wellFormed 2 (.submit { size := 2, type := 3, payload := [1, 2] }) = true ∧
    Instr.wellFormed 2 (.seq (List.replicate 255 0)) = true := by decide +kernel

/-- TransmittedFrameTrace: a frame of the staging buffer at its start. -/
theorem witness_transmitted :
    Inv (transmitting 0 eccFrame) ∧ (transmitting 0 eccFrame).mode = .transmitting ∧
    (transmitting 0 eccFrame).counter = 0#16 := by decide

/-- ReplayedFrameIsDelivered: the smallest and the largest packet of an engine with a payload of two bytes, every codeword
damaged. -/
theorem witness_replayed :
    let p : Packet := { size := 1, type := 3, payload := [0xAB, 0xCD] }
    let q : Packet := { size := 2, type := 1, payload := [0xAB, 0xCD] }
    Inv base ∧ base.mode = .idle ∧ base.fgq = [] ∧ 1 ≤ p.size.toNat ∧ q.size.toNat ≤ base.cfg.maxPayload ∧
    p.type.toNat ≤ 3 ∧ p.payload.length = base.cfg.maxPayload ∧
    (loadStaging p base).damagedBytes (fun _ => some 0) = [1, 3, 0x4A, 0xAB] := by decide

end Sys2Proof.Machine.Tests
end

section
/-! The invariant in two parts, the clauses that do not look at `STATE` and `COUNTER` and the place in the frame, and that
each shared operation keeps its part. -/

namespace Sys2Proof.Machine

open Sys2Proof

/-- The clauses of the invariant that look neither at `STATE` nor at `COUNTER`. -/
structure Sound (s : State) : Prop where
  slotSize : ∀ ix, ((s.slot ix).read sizeOff).toNat ≤ s.cfg.maxPayload
  stagingSize : (s.txs.read sizeOff).toNat ≤ s.cfg.maxPayload
  mailbox : MailboxSound s
  bus : BusIdle s
  spaces : SpacesCanonical s
  queue : QueueAdmitted s
  cfg : s.cfg.wf = true

/-- Where `COUNTER` may stand in each `STATE` (10_state.md R37 ii, iii, iv). -/
structure InPlace (s : State) : Prop where
  outside : CounterZeroOutsideFrames s
  receiving : ReceivingInFrame s
  transmitting : TransmittingInFrame s

theorem inv_iff (s : State) : Inv s ↔ Sound s ∧ InPlace s := by
  constructor
  · rintro ⟨⟨h0, h1, htx⟩, hout, hrx, htr, hmb, hbus, hsp, hq, hcfg⟩
    refine ⟨⟨fun ix => ?_, htx, hmb, hbus, hsp, hq, hcfg⟩, ⟨hout, hrx, htr⟩⟩
    cases ix
    · exact h0
    · exact h1
  · rintro ⟨hs, hp⟩
    exact ⟨⟨hs.slotSize .slot0, hs.slotSize .slot1, hs.stagingSize⟩, hp.outside, hp.receiving, hp.transmitting,
      hs.mailbox, hs.bus, hs.spaces, hs.queue, hs.cfg⟩

theorem Inv.sound {s : State} (h : Inv s) : Sound s := ((inv_iff s).1 h).1

theorem Inv.inPlace {s : State} (h : Inv s) : InPlace s := ((inv_iff s).1 h).2

theorem Sound.inv {s : State} (h : Sound s) (hp : InPlace s) : Inv s := (inv_iff s).2 ⟨h, hp⟩

/-! ## Places in and outside a frame -/

/-- `Idle` and the test states with `COUNTER` 0 are in place. -/
theorem inPlace_outside {s : State} (hm : s.mode = .idle ∨ s.mode.isTest = true) (hc : s.counter = 0#16) : InPlace s where
  outside := fun _ => hc
  receiving := fun hr => by rw [hr] at hm; exact absurd hm (by decide)
  transmitting := fun ht => by rw [ht] at hm; exact absurd hm (by decide)

theorem inPlace_receiving {s : State} (hm : s.mode = .receiving) (hz : 1 ≤ (s.activeSlot.read sizeOff).toNat)
    (hc : s.counter = 1#16 ∨ (2 ≤ s.counter.toNat ∧ s.counter.toNat < s.rxEnd)) : InPlace s where
  outside := fun ho => by rw [hm] at ho; exact absurd ho (by decide)
  receiving := fun _ => ⟨hz, hc⟩
  transmitting := fun ht => by rw [hm] at ht; cases ht

theorem inPlace_transmitting {s : State} (hm : s.mode = .transmitting) (hc : s.counter.toNat ≤ s.txEnd) : InPlace s where
  outside := fun ho => by rw [hm] at ho; exact absurd ho (by decide)
  receiving := fun hr => by rw [hm] at hr; cases hr
  transmitting := fun _ => hc

/-! ## What the shared operations keep -/

theorem Sound.setCounter {s : State} (h : Sound s) (n : Word) : Sound { s with counter := n } := { h with }

theorem Sound.goTo {s : State} (h : Sound s) (m : Mode) (n : Word) : Sound (s.goTo m n) := { h with }

theorem Sound.setQueue {s : State} (h : Sound s) {q : List Micro} (hq : q.all (microAdmitted s.cfg) = true) (r : Resp) :
    Sound { s with fgq := q, resp := r } := { h with queue := hq }

theorem Inv.afterBus {s : State} (h : Inv s) (ws : List Word) : Inv (s.afterBus ws) := by
  rw [State.afterBus_eq]; exact h

theorem Sound.afterBus {s : State} (h : Sound s) (ws : List Word) : Sound (s.afterBus ws) := by
  rw [State.afterBus_eq]; exact { h with }

theorem Inv.takeInput {s : State} (h : Inv s) : Inv s.takeInput.2 := by
  rw [takeInput_frame]; exact h

theorem Sound.setSlot {s : State} (h : Sound s) {ix : SlotIx} {m : Memory} (hc : SpacesCanonical (s.setSlot ix m))
    (hz : (((s.setSlot ix m).slot ix).read sizeOff).toNat ≤ s.cfg.maxPayload) : Sound (s.setSlot ix m) where
  slotSize jx := by
    rw [State.setSlot_cfg]
    by_cases hj : jx = ix
    · rw [hj]; exact hz
    · rw [State.setSlot_slot_ne s m hj]; exact h.slotSize jx
  stagingSize := by simpa using h.stagingSize
  mailbox := by
    unfold MailboxSound
    simpa using h.mailbox
  bus := by
    unfold BusIdle
    simpa using h.bus
  spaces := hc
  queue := by simpa using h.queue
  cfg := by simpa using h.cfg

/-- A byte stored into the active slot, read back from the active slot. -/
theorem writeActive_activeSlot_read {s : State} (h : SpacesCanonical s) (o : Nat) (b : Byte) (a : Nat) :
    (s.writeActive o b).activeSlot.read a = if a = o then b else s.activeSlot.read a := by
  have ha : (s.writeActive o b).active = s.active := State.setSlot_active _ _ _
  rw [State.activeSlot, ha, writeActive_read h]; rfl

theorem clearActive_activeSlot_size {s : State} (h : SpacesCanonical s) (len : Byte) :
    (clearActive len s).activeSlot.read sizeOff = len := by
  have ha : (clearActive len s).active = s.active := State.setSlot_active _ _ _
  rw [State.activeSlot, ha, clearActive_read h, if_pos rfl]

theorem Sound.clearActive {s : State} (h : Sound s) {len : Byte} (hl : len.toNat ≤ s.cfg.maxPayload) :
    Sound (clearActive len s) := by
  refine h.setSlot (clearActive_canonical h.spaces len) ?_
  have hz : ((Machine.clearActive len s).slot s.active).read sizeOff = len := by rw [clearActive_read h.spaces, if_pos rfl]
  exact (congrArg BitVec.toNat hz).trans_le hl

/-- A byte stored into the active slot, not at its size. -/
theorem Sound.writeActive {s : State} (h : Sound s) {o : Nat} (h0 : o ≠ sizeOff) (ho : o < slotBytes s.cfg) (b : Byte) :
    Sound (s.writeActive o b) := by
  refine h.setSlot (writeActive_canonical h.spaces ho b) ?_
  have hz : ((s.writeActive o b).slot s.active).read sizeOff = (s.slot s.active).read sizeOff := by
    rw [writeActive_read h.spaces, if_neg (Ne.symm h0)]
  exact (congrArg BitVec.toNat hz).trans_le (h.slotSize _)

theorem Sound.postMailbox {s : State} (h : Sound s) : Sound (postMailbox s) := by
  have hswap : Sound { s with mbPtr := some s.active, active := s.active.other, mbFlag := true } :=
    { h with mailbox := ⟨by simp, by simp⟩ }
  refine hswap.setSlot (postMailbox_canonical h.spaces) ?_
  have hz : ((Machine.postMailbox s).slot s.active.other).read sizeOff = 0#8 := by rw [postMailbox_read h.spaces, if_pos rfl]
  exact (congrArg BitVec.toNat hz).trans_le (Nat.zero_le _)

theorem Sound.loadStaging {s : State} (h : Sound s) {p : Packet} (hp : p.size.toNat ≤ s.cfg.maxPayload) :
    Sound (loadStaging p s) :=
  { h with
    stagingSize := by rw [loadStaging_read h.spaces, if_pos rfl]; exact hp
    spaces := loadStaging_canonical h.spaces p }

/-- Completing a frame ends in a state of the invariant, wherever `COUNTER` stood (43_receive_deframer.md R186). -/
theorem Sound.rxComplete_inv {s : State} (h : Sound s) : Inv (rxComplete s) := by
  rw [rxComplete_idle h.bus]
  exact ((h.afterBus _).postMailbox.goTo _ _).inv (inPlace_outside (.inl rfl) rfl)

end Sys2Proof.Machine
end

section
/-! The handler: the rules of format T as bodies of one invocation, what they leave of the staging buffer, and that the
selected one keeps the invariant. -/

namespace Sys2Proof.Machine

open Sys2Proof

/-- The body an invocation of a rule of format T runs; no other operation is the body of one. -/
def handlerBody : Instr → State → State
  | .tIdleStart => bodyIdleStart
  | .tIdleFramingError => bodyIdleFramingError
  | .tRxType => bodyRxType
  | .tRxDataRaw => bodyRxDataRaw
  | .tRxDataEcc => bodyRxDataEcc
  | .tTxEmit => bodyTxEmit
  | .tTxFinish => bodyTxFinish
  | .tTestZero => fun t => unitWrite t.cfg.patZero t
  | .tTestOne => fun t => unitWrite t.cfg.patOne t
  | .tTestAlt => fun t => unitWrite t.cfg.patAlt t
  | _ => id

/-- Every rule of format T is the invocation of its body. -/
theorem exec_T_invoke {i : Instr} (hf : i.format = .T) (s : State) : exec i s = invoke i (handlerBody i) s := by
  cases i
  case tIdleStart | tIdleFramingError | tRxType | tRxDataRaw | tRxDataEcc | tTxEmit | tTxFinish | tTestZero | tTestOne
    | tTestAlt => rfl
  all_goals cases hf

/-- The dispatch selects rules of format T. -/
theorem handlerRule_format {s : State} {i : Instr} (h : s.handlerRule = some i) : i.format = .T := by
  rw [handlerRule_eq] at h
  cases h
  cases s.mode
  case idle => dsimp only; split <;> rfl
  case receiving =>
    dsimp only
    split
    · rfl
    · split <;> rfl
  case transmitting => dsimp only; split <;> rfl
  all_goals rfl

/-- Everything a handler turn can leave: the state as it was, or the body of the selected rule run after the entry. -/
theorem handlerTurn_body {s t : State} (h : handlerTurn s = .next t) :
    t = s ∨ ∃ i, s.handlerRule = some i ∧ t = handlerBody i s.enterHandler := by
  obtain ⟨-, rfl⟩ | ⟨i, hr, he, -⟩ := handlerTurn_next h
  · exact .inl rfl
  · rw [exec_T_invoke (handlerRule_format hr)] at he
    obtain ⟨-, ⟨-, rfl⟩ | ⟨-, -, rfl⟩ | ⟨-, -, -, rfl⟩⟩ := invoke_next he
    · exact .inl rfl
    · exact .inl rfl
    · exact .inr ⟨i, hr, rfl⟩

/-! ## The staging buffer -/

@[simp] theorem xfer_txs (n : Nat) (out : Word) (s : State) : (xfer n out s).2.txs = s.txs := by simp [xfer_closed]

@[simp] theorem writeWord_txs (w : Word) (s : State) : (writeWord w s).txs = s.txs := xfer_txs _ _ _

@[simp] theorem unitRead_txs (s : State) : (unitRead s).2.txs = s.txs := xfer_txs _ _ _

@[simp] theorem unitWrite_txs (b : Byte) (s : State) : (unitWrite b s).txs = s.txs := writeWord_txs _ _

@[simp] theorem seqWords_txs : ∀ (ws : List Word) (s : State), (seqWords ws s).txs = s.txs
  | [], _ => rfl
  | w :: ws, s => (seqWords_txs ws (writeWord w s)).trans (writeWord_txs w s)

@[simp] theorem writeActive_txs (s : State) (o : Nat) (b : Byte) : (s.writeActive o b).txs = s.txs := State.setSlot_txs _ _ _

@[simp] theorem clearActive_txs (len : Byte) (s : State) : (clearActive len s).txs = s.txs := State.setSlot_txs _ _ _

@[simp] theorem rxComplete_txs (s : State) : (rxComplete s).txs = s.txs := by simp [rxComplete, postMailbox]

@[simp] theorem rxAdvance_txs (e : Nat) (s : State) : (rxAdvance e s).txs = s.txs := by
  unfold rxAdvance; dsimp only; split <;> simp

/-- No rule of the handler writes the staging buffer. -/
theorem handlerBody_txs (i : Instr) (s : State) : (handlerBody i s).txs = s.txs := by
  cases i
  case tIdleStart => simp [handlerBody, bodyIdleStart]
  case tIdleFramingError => simp [handlerBody, bodyIdleFramingError, absorbFramingError]
  case tRxType => simp [handlerBody, bodyRxType]
  case tRxDataRaw => simp [handlerBody, bodyRxDataRaw]
  case tRxDataEcc => simp [handlerBody, bodyRxDataEcc]
  case tTxEmit => simp [handlerBody, bodyTxEmit]
  case tTxFinish => simp [handlerBody, bodyTxFinish]
  case tTestZero => exact unitWrite_txs _ s
  case tTestOne => exact unitWrite_txs _ s
  case tTestAlt => exact unitWrite_txs _ s
  all_goals rfl

/-! ## The invariant -/

theorem unitWrite_inv {s : State} (h : Inv s) (b : Byte) : Inv (unitWrite b s) := by
  rw [unitWrite_idle h.sound.bus]; exact h.afterBus _

theorem bodyIdleStart_inv {s : State} (h : Inv s) (hv : validLength s.cfg s.nextUnit = true) : Inv (bodyIdleStart s) := by
  simp only [validLength, Bool.and_eq_true, decide_eq_true_eq] at hv
  rw [bodyIdleStart, unitRead_idle h.sound.bus]
  have hs := h.sound.afterBus [s.cfg.unitReadCmd]
  refine ((hs.clearActive (by simpa using hv.2)).goTo _ _).inv (inPlace_receiving rfl ?_ (.inl rfl))
  exact hv.1.trans_eq (congrArg BitVec.toNat (clearActive_activeSlot_size hs.spaces s.nextUnit)).symm

theorem bodyIdleFramingError_inv {s : State} (h : Inv s) : Inv (bodyIdleFramingError s) := by
  rw [bodyIdleFramingError, unitRead_idle h.sound.bus, absorbFramingError, seqWords_idle _ (h.afterBus _).sound.bus]
  exact (h.afterBus _).afterBus _

/-- A type byte stored keeps the invariant, whatever its value: a frame has at least one payload byte. -/
theorem storeType_inv {s : State} (h : Inv s) (hm : s.mode = .receiving) (b : Byte) :
    Inv { s.writeActive typeOff b with counter := 2#16 } := by
  have hs := h.sound.writeActive (o := typeOff) (by decide) (by simp only [typeOff, slotBytes]; omega) b
  have hz : 1 ≤ ((s.writeActive typeOff b).activeSlot.read sizeOff).toNat := by
    rw [writeActive_activeSlot_read h.sound.spaces, if_neg (by decide)]
    exact (h.inPlace.receiving hm).1
  have hend : 2 < (s.writeActive typeOff b).rxEnd := by
    have := size_le_wirePayload (s.writeActive typeOff b).activeSlot
    unfold State.rxEnd rxOverhead; omega
  exact (hs.setCounter 2#16).inv
    (inPlace_receiving ((State.setSlot_mode _ _ _).trans hm) hz (.inr ⟨Nat.le_refl 2, hend⟩))

theorem bodyRxType_inv {s : State} (h : Inv s) (hm : s.mode = .receiving) : Inv (bodyRxType s) := by
  rw [bodyRxType, unitRead_idle h.sound.bus]
  exact storeType_inv (h.afterBus _) (by simpa using hm) _

/-- Inside a frame the byte stored is a payload byte of the slot (30_encoding.md R101). -/
theorem rxStoreOff_bounds {s : State} (h : Inv s) (hc : 2 ≤ s.counter.toNat ∧ s.counter.toNat < s.rxEnd) :
    2 ≤ s.rxStoreOff ∧ s.rxStoreOff < slotBytes s.cfg := by
  obtain ⟨hlo, hhi⟩ := hc
  have hz : (s.activeSlot.read sizeOff).toNat ≤ s.cfg.maxPayload := h.sound.slotSize s.active
  simp only [State.rxEnd, wirePayload, rxOverhead] at hhi
  simp only [State.rxStoreOff, State.rxOff, payloadOff, slotBytes, rxOverhead]
  by_cases ht : isEccType (s.activeSlot.read typeOff) = true
  · rw [if_pos ht] at hhi ⊢
    omega
  · rw [if_neg ht] at hhi ⊢
    omega

/-- A payload byte stored leaves the frame end where it was. -/
theorem writeActive_rxEnd {s : State} (h : SpacesCanonical s) {o : Nat} (ho : 2 ≤ o) (b : Byte) :
    (s.writeActive o b).rxEnd = s.rxEnd := by
  have hread : ∀ a < 2, (s.writeActive o b).activeSlot.read a = s.activeSlot.read a := fun a ha => by
    rw [writeActive_activeSlot_read h, if_neg (by omega)]
  simp only [State.rxEnd, wirePayload, hread sizeOff (by decide), hread typeOff (by decide)]

/-- A counter below a frame end does not wrap when it counts on (10_state.md R22). -/
theorem toNat_counter_succ {n : Word} (h : n.toNat < 600) : (n + 1#16).toNat = n.toNat + 1 := by
  rw [BitVec.toNat_add]; simp; omega

/-- The tail of the payload rules keeps the invariant: the next place in the frame, or its completion. -/
theorem rxAdvance_inv {s : State} (h : Inv s) (hm : s.mode = .receiving)
    (hc : 2 ≤ s.counter.toNat ∧ s.counter.toNat < s.rxEnd) : Inv (rxAdvance s.rxEnd s) := by
  obtain ⟨hlo, hhi⟩ := hc
  have hnext := toNat_counter_succ (hhi.trans (rxEnd_lt s))
  unfold rxAdvance
  dsimp only
  split
  · exact (h.sound.setCounter _).rxComplete_inv
  · next hlt =>
    refine (h.sound.setCounter _).inv (inPlace_receiving hm (h.inPlace.receiving hm).1 (.inr ⟨?_, ?_⟩))
    · show 2 ≤ (s.counter + 1#16).toNat
      omega
    · exact not_le.mp hlt

/-- A payload byte stored and counted keeps the invariant, whatever its value. -/
theorem storePayload_inv {s : State} (h : Inv s) (hm : s.mode = .receiving) (h1 : s.counter ≠ 1#16) (b : Byte) :
    Inv (rxAdvance s.rxEnd (s.writeActive s.rxStoreOff b)) := by
  have hc := (h.inPlace.receiving hm).2.resolve_left h1
  obtain ⟨hlo, hhi⟩ := rxStoreOff_bounds h hc
  have hs := h.sound.writeActive (o := s.rxStoreOff) (by unfold sizeOff; omega) hhi b
  have hend := writeActive_rxEnd h.sound.spaces hlo b
  have hmode : (s.writeActive s.rxStoreOff b).mode = .receiving := (State.setSlot_mode _ _ _).trans hm
  have hctr : (s.writeActive s.rxStoreOff b).counter = s.counter := State.setSlot_counter _ _ _
  have hz : 1 ≤ ((s.writeActive s.rxStoreOff b).activeSlot.read sizeOff).toNat := by
    rw [writeActive_activeSlot_read h.sound.spaces, if_neg (by unfold sizeOff; omega)]
    exact (h.inPlace.receiving hm).1
  rw [← hctr, ← hend] at hc
  rw [← hend]
  exact rxAdvance_inv (hs.inv (inPlace_receiving hmode hz (.inr hc))) hmode hc

@[simp] theorem afterBus_rxEnd (s : State) (ws : List Word) : (s.afterBus ws).rxEnd = s.rxEnd := by
  simp [State.rxEnd]

@[simp] theorem afterBus_rxStoreOff (s : State) (ws : List Word) : (s.afterBus ws).rxStoreOff = s.rxStoreOff := by
  simp [State.rxStoreOff, State.rxOff]

/-- The payload rules after the unit read, whichever byte they make of the unit. -/
theorem rxPayload_inv {s : State} (h : Inv s) (hm : s.mode = .receiving) (h1 : s.counter ≠ 1#16) (ws : List Word)
    (b : Byte) : Inv (rxAdvance s.rxEnd ((s.afterBus ws).writeActive s.rxStoreOff b)) := by
  have := storePayload_inv (h.afterBus ws) (by simpa using hm) (by simpa using h1) b
  rwa [afterBus_rxEnd, afterBus_rxStoreOff] at this

theorem bodyRxDataRaw_inv {s : State} (h : Inv s) (hm : s.mode = .receiving) (h1 : s.counter ≠ 1#16) :
    Inv (bodyRxDataRaw s) := by
  rw [bodyRxDataRaw, unitRead_idle h.sound.bus]
  exact rxPayload_inv h hm h1 _ _

theorem bodyRxDataEcc_inv {s : State} (h : Inv s) (hm : s.mode = .receiving) (h1 : s.counter ≠ 1#16) :
    Inv (bodyRxDataEcc s) := by
  rw [bodyRxDataEcc, unitRead_idle h.sound.bus]
  exact rxPayload_inv h hm h1 _ _

theorem bodyTxEmit_inv {s : State} (h : Inv s) (hm : s.mode = .transmitting) (hc : s.counter.toNat < s.txEnd) :
    Inv (bodyTxEmit s) := by
  rw [bodyTxEmit, unitWrite_idle h.sound.bus]
  refine ((h.sound.afterBus _).setCounter _).inv (inPlace_transmitting (by simpa using hm) ?_)
  have hnext := toNat_counter_succ (hc.trans (txEnd_lt s))
  simp only [State.txEnd, State.afterBus_txs, State.afterBus_counter, hnext] at hc ⊢
  omega

theorem bodyTxFinish_inv {s : State} (h : Inv s) : Inv (bodyTxFinish s) := by
  have hb := h.sound.bus
  rw [bodyTxFinish, seqWords_idle _ hb, seqWords_idle _ (h.afterBus _).sound.bus,
    seqWords_idle _ ((h.afterBus _).afterBus _).sound.bus]
  exact (((h.sound.afterBus _).afterBus _).afterBus _ |>.goTo _ _).inv (inPlace_outside (.inl rfl) rfl)

/-- The rule the dispatch selects keeps the invariant. -/
theorem handlerBody_inv {s : State} (h : Inv s) {i : Instr} (hr : s.handlerRule = some i) : Inv (handlerBody i s) := by
  rw [handlerRule_eq] at hr
  cases hr
  cases hm : s.mode
  case idle =>
    dsimp only
    split
    · next hv => exact bodyIdleStart_inv h hv
    · exact bodyIdleFramingError_inv h
  case receiving =>
    dsimp only
    split
    · exact bodyRxType_inv h hm
    · next h1 =>
      split
      · exact bodyRxDataEcc_inv h hm h1
      · exact bodyRxDataRaw_inv h hm h1
  case transmitting =>
    dsimp only
    split
    · next hc => exact bodyTxEmit_inv h hm hc
    · exact bodyTxFinish_inv h
  all_goals exact unitWrite_inv h _

theorem handlerTurn_inv {s t : State} (h : Inv s) (ht : handlerTurn s = .next t) : Inv t := by
  obtain rfl | ⟨i, hr, rfl⟩ := handlerTurn_body ht
  · exact h
  · exact handlerBody_inv (s := s.enterHandler) h hr

theorem handlerTurn_txs {s t : State} (ht : handlerTurn s = .next t) : t.txs = s.txs := by
  obtain rfl | ⟨i, -, rfl⟩ := handlerTurn_body ht
  · rfl
  · exact handlerBody_txs i s.enterHandler

end Sys2Proof.Machine
end

section
/-! The command port: the three things an accepted host operation can do. -/

namespace Sys2Proof.Machine

open Sys2Proof

/-- What a host operation can leave behind: nothing changed; an answer, with the mailbox flag perhaps lowered; admitted
micro-operations in the queue; or these in `Idle` or a test state entered with `COUNTER` 0. -/
inductive HostEffect (s : State) : State → Prop where
  | nothing : HostEffect s s
  | answers (flag fired : Bool) (r : Resp) (hflag : flag = true → s.mbFlag = true) :
    HostEffect s { s with mbFlag := flag, fired := fired, resp := r }
  | queues (q : List Micro) (hq : q.all (microAdmitted s.cfg) = true) :
    HostEffect s { s with fgq := q, resp := .nothing }
  | enters (m : Mode) (hm : m = .idle ∨ m.isTest = true) (q : List Micro) (hq : q.all (microAdmitted s.cfg) = true) :
    HostEffect s { s.goTo m 0#16 with fgq := q, resp := .nothing }

theorem HostEffect.respond (s : State) (r : Resp) : HostEffect s (s.respond r) := .answers s.mbFlag s.fired r id

@[simp] theorem writesOf_admitted (cfg : Config) (ws : List Word) : (writesOf ws).all (microAdmitted cfg) = true := by
  simp [writesOf, microAdmitted]

/-- What `SUBMIT` queues for a packet it does not refuse. -/
theorem submitTail_admitted {cfg : Config} {p : Packet} (hw : p.wellFormed cfg.maxPayload = true)
    (hr : submitRefused cfg p = false) : (submitTail cfg p).all (microAdmitted cfg) = true := by
  simp only [submitRefused, Bool.or_eq_false_iff, decide_eq_false_iff_not, not_lt] at hr
  simp [submitTail, microAdmitted, hw, hr]

theorem testModeOf_isTest {m : BitVec 2} {mode : Mode} (h : testModeOf m = some mode) : mode.isTest = true := by
  unfold testModeOf at h
  split at h <;> cases h <;> rfl

/-- What an operation does once accepted is all it can do: not accepted it changes nothing. -/
theorem HostEffect.of_accept {s t : State} {k : Result} (h : accept s k = .next t)
    (hk : s.fgq = [] → k = .next t → HostEffect s t) : HostEffect s t := by
  obtain ⟨-, rfl⟩ | ⟨hq, h⟩ := accept_next h
  · exact .nothing
  · exact hk hq h

theorem HostEffect.of_answer {s t : State} {r : Resp} (h : accept s (.next (s.respond r)) = .next t) : HostEffect s t :=
  .of_accept h fun _ hk => by cases hk; exact .respond s r

theorem takeMailbox_effect {s t : State} {r : Option SlotIx → State → Resp}
    (h : takeMailbox s (fun p u => .next (u.respond (r p u))) = .next t) : HostEffect s t := by
  unfold takeMailbox at h
  split at h
  · split at h <;> cases h
    exact .answers false s.fired _ (by simp)
  · cases h; exact .respond s _

theorem execSubmit_effect {s t : State} {p : Packet} (hw : p.wellFormed s.cfg.maxPayload = true)
    (h : execSubmit p s = .next t) : HostEffect s t := by
  refine .of_accept h fun hq hk => ?_
  split at hk
  · cases hk; exact .respond s _
  · next hr =>
    have hadm := submitTail_admitted hw (by simpa using hr)
    split at hk <;> cases hk
    · exact .enters .idle (.inl rfl) _ (by simp [hadm])
    · exact .queues _ (by simp [hq, hadm])

theorem execEnterTestMode_effect {s t : State} {m : BitVec 2} (h : execEnterTestMode m s = .next t) : HostEffect s t := by
  refine .of_accept h fun _ hk => ?_
  split at hk
  · next mode hm =>
    cases hk; exact .enters mode (.inr (testModeOf_isTest hm)) _ (writesOf_admitted _ _)
  · cases hk; exact .respond s _

theorem execSetFrequency_effect {s t : State} {v : Word} (h : execSetFrequency v s = .next t) : HostEffect s t := by
  refine .of_accept h fun _ hk => ?_
  split at hk <;> cases hk
  · exact .queues _ rfl
  · exact .respond s _

theorem execPeek_effect {s t : State} {slot : SlotIx} {o : Word} (h : execPeek slot o s = .next t) : HostEffect s t := by
  refine .of_accept h fun _ hk => ?_
  split at hk <;> cases hk
  · exact .respond s _
  · exact .respond s _

/-- Everything a well-formed host operation can do when it answers a next state. -/
theorem exec_H_effect {i : Instr} (hf : i.format = .H) {s t : State} (hw : i.wellFormed s.cfg.maxPayload = true)
    (h : exec i s = .next t) : HostEffect s t := by
  cases i
  case encodeNibble | decodeNibble | isIdle => exact .of_answer h
  case submit => exact execSubmit_effect hw h
  case pollReceived => exact .of_accept h fun _ hk => takeMailbox_effect hk
  case liveness => exact .of_accept h fun _ hk => by cases hk; exact .answers s.mbFlag false _ id
  case reset => exact .of_accept h fun _ hk => by cases hk; exact .enters .idle (.inl rfl) _ (writesOf_admitted _ _)
  case enterTestMode => exact execEnterTestMode_effect h
  case setRegister => exact .of_accept h fun _ hk => by cases hk; exact .queues _ rfl
  case setFrequency => exact execSetFrequency_effect h
  case peek => exact execPeek_effect h
  all_goals cases hf

/-- The operands a decoder of format H answers with are well-formed. -/
theorem decode_H_instr_wellFormed {mp : Nat} {l r : List Byte} {i : Instr} (h : decode mp .H l = .ok (i, r)) :
    i.wellFormed mp = true := by
  have hf := decode_H_format h
  cases i
  case submit p => simpa [Instr.wellFormed, Packet.wellFormed] using decode_H_wellFormed h
  case claim | loadStaging | seq => cases hf
  all_goals rfl

/-- Everything the command port can do when it answers a next state. -/
theorem hostTurn_effect {bytes : List Byte} {s t : State} (h : hostTurn bytes s = .next t) : HostEffect s t := by
  obtain ⟨i, r, hd, he⟩ | rfl | ⟨-, rfl⟩ := hostTurn_next h
  · exact exec_H_effect (decode_H_format hd) (decode_H_instr_wellFormed hd) he
  · exact .nothing
  · exact .respond s _

theorem HostEffect.txs {s t : State} (h : HostEffect s t) : t.txs = s.txs := by cases h <;> rfl

theorem HostEffect.inv {s t : State} (h : HostEffect s t) (hi : Inv s) : Inv t := by
  cases h with
  | nothing => exact hi
  | answers flag fired r hflag =>
    exact hi.congr rfl rfl rfl rfl rfl rfl rfl hflag rfl rfl rfl hi.sound.queue
  | queues q hq => exact (hi.sound.setQueue hq _).inv { hi.inPlace with }
  | enters m hm q hq => exact ((hi.sound.goTo m 0#16).setQueue hq _).inv (inPlace_outside hm rfl)

end Sys2Proof.Machine
end

section
/-! The foreground's micro-operations, a whole step, and the three statements. -/

namespace Sys2Proof.Machine

open Sys2Proof

/-- A micro-operation taken off the queue was an admitted one. -/
theorem Sound.head_admitted {s : State} (h : Sound s) {m : Micro} {rest : List Micro} (hq : s.fgq = m :: rest) :
    microAdmitted s.cfg m = true ∧ rest.all (microAdmitted s.cfg) = true := by
  simpa [hq] using h.queue

theorem execW_inv {s t : State} {word : Word} (h : Inv s) (he : execW word s = .next t) : Inv t := by
  unfold execW withBus at he
  split at he <;> cases he
  · exact h
  · rw [writeWord_idle h.sound.bus]; exact h.afterBus _

/-- A claimed packet is in `TXS` with its size bounded, and its frame starts at `COUNTER` 0. -/
theorem execClaim_inv {s t : State} {p : Packet} (h : Inv s) (hp : p.size.toNat ≤ s.cfg.maxPayload)
    (he : execClaim p s = .next t) : Inv t := by
  unfold execClaim at he
  split at he <;> cases he
  · exact ((h.sound.goTo .transmitting 0#16).loadStaging hp).inv (inPlace_transmitting rfl (Nat.zero_le _))
  · exact h

theorem exec_micro_inv {s t : State} {m : Micro} (h : Inv s) (hm : microAdmitted s.cfg m = true)
    (he : exec m.instr s = .next t) : Inv t := by
  cases m with
  | w word => exact execW_inv h he
  | claim p =>
    simp only [microAdmitted, Bool.and_eq_true, decide_eq_true_eq] at hm
    obtain ⟨⟨-, hsize⟩, -⟩ := hm
    exact execClaim_inv h hsize he

theorem foregroundTurn_inv {s t : State} (h : Inv s) (ht : foregroundTurn s = .next t) : Inv t := by
  obtain rfl | ⟨m, rest, hq, -, he⟩ := foregroundTurn_next ht
  · exact h
  · obtain ⟨hm, hrest⟩ := h.sound.head_admitted hq
    have hpop : Inv { s with fgq := rest } := h.congr rfl rfl rfl rfl rfl rfl rfl id rfl rfl rfl hrest
    exact exec_micro_inv hpop hm he

theorem execW_txs {s t : State} {word : Word} (he : execW word s = .next t) : t.txs = s.txs := by
  unfold execW withBus at he
  split at he <;> cases he
  · rfl
  · exact writeWord_txs word s

/-- A foreground turn that changes the staging buffer ran a `CLAIM` in `Idle`. -/
theorem foregroundTurn_txs {s t : State} (ht : foregroundTurn s = .next t) (hne : t.txs ≠ s.txs) :
    s.mode = .idle ∧ ∃ p q, s.fgq = .claim p :: q := by
  obtain rfl | ⟨m, rest, hq, hm, he⟩ := foregroundTurn_next ht
  · exact absurd rfl hne
  · cases m with
    | w word => exact absurd (execW_txs he) hne
    | claim p => exact ⟨by simpa [microEnabled, State.isIdle] using hm, p, rest, hq⟩

/-- The effect of each input keeps the invariant. -/
theorem turn_inv {inp : Input} {s t : State} (h : Inv s) (ht : turn inp s = .next t) : Inv t := by
  cases inp with
  | trigger => cases ht; exact h
  | handler => exact handlerTurn_inv h ht
  | foreground => exact foregroundTurn_inv h ht
  | host bytes => exact (hostTurn_effect ht).inv h
  | encPort v => cases ht; exact h
  | decPort c => cases ht; exact h

/-- The effect of an input that changes the staging buffer is that of a `CLAIM` in `Idle`. -/
theorem turn_txs {inp : Input} {s t : State} (ht : turn inp s = .next t) (hne : t.txs ≠ s.txs) :
    inp = .foreground ∧ s.mode = .idle ∧ ∃ p q, s.fgq = .claim p :: q := by
  cases inp with
  | trigger => cases ht; exact absurd rfl hne
  | handler => exact absurd (handlerTurn_txs ht) hne
  | foreground => exact ⟨rfl, foregroundTurn_txs ht hne⟩
  | host bytes => exact absurd (hostTurn_effect ht).txs hne
  | encPort v => cases ht; exact absurd rfl hne
  | decPort c => cases ht; exact absurd rfl hne

theorem resetWith_inv {cfg : Config} (h : cfg.wf = true) : Inv (State.resetWith cfg) := by
  have hs : Sound (State.resetWith cfg) :=
    { slotSize := fun ix => by cases ix <;> exact Nat.zero_le _
      stagingSize := Nat.zero_le _
      mailbox := ⟨nofun, nofun⟩
      bus := ⟨rfl, rfl⟩
      spaces := ⟨rfl, rfl, rfl⟩
      queue := rfl
      cfg := h }
  exact hs.inv (inPlace_outside (.inl rfl) rfl)

/-- Settles O51: the input taken moves no field the invariant looks at, and each kind of turn keeps it. -/
theorem stepKeepsInvariant : Obligations.StepKeepsInvariant := by
  intro s t h ht
  obtain ⟨-, hturn⟩ := step_next ht
  exact turn_inv h.takeInput hturn

/-- Settles O55: of the turns only a `CLAIM` run by the foreground writes `TXS`. -/
theorem onlyClaimWritesStaging : Obligations.OnlyClaimWritesStaging := by
  intro s t ht hne
  obtain ⟨-, hturn⟩ := step_next ht
  have hwrote := turn_txs hturn
  rw [takeInput_frame] at hwrote
  exact hwrote hne

/-- Settles O50: every clause is about empty spaces, an empty queue or `COUNTER` 0, but the parameters' own. -/
theorem invariantHoldsAtReset : Obligations.InvariantHoldsAtReset :=
  ⟨resetWith_inv (by decide), fun _ => resetWith_inv⟩

end Sys2Proof.Machine
end

section
/-! A transaction bit by bit: what the bit-steps from select on leave behind, the pins in each phase of one bit-step, and the
pins outside a transaction. -/

namespace Sys2Proof.Machine

open Sys2Proof

/-- The highest bit still to go is the last one driven; the later phases of the bit-step leave `driven` as it is. -/
@[simp] theorem InFlight.getLast?_drive_driven (t : InFlight) :
    t.drive.driven.getLast? = some (t.out.getLsbD (t.remaining - 1)) := List.getLast?_concat

@[simp] theorem InFlight.pulseStart_driven (t : InFlight) : t.pulseStart.driven = t.driven := rfl
@[simp] theorem InFlight.sample_driven (t : InFlight) (sdi : Bool) : (t.sample sdi).driven = t.driven := rfl

@[simp] theorem InFlight.drive_sck (t : InFlight) : t.drive.sck = t.sck := rfl
@[simp] theorem InFlight.pulseStart_sck (t : InFlight) : t.pulseStart.sck = true := rfl
@[simp] theorem InFlight.sample_sck (t : InFlight) (sdi : Bool) : (t.sample sdi).sck = t.sck := rfl

/-- A transaction of `n` bits samples bits `n-1` down to 0 of the answer and zeros above them. -/
theorem InFlight.getLsbD_run_start_sampled {n : Nat} (hn : n ≤ 16) (out answer : Word) (i : Nat) :
    (InFlight.run answer n (InFlight.start n out)).sampled.getLsbD i = (decide (i < n) && answer.getLsbD i) := by
  rw [InFlight.run_sampled]
  by_cases hi : i < n
  · have h16 : i < 16 := by omega
    simp [hi, h16]
  · simp [hi, InFlight.start]

/-- A transaction drives bits `n-1` down to 0 of the outgoing word, one pulse each, and leaves no bit to clock. -/
theorem InFlight.run_start_clocked (n : Nat) (out answer : Word) :
    let t := InFlight.run answer n (InFlight.start n out)
    t.remaining = 0 ∧ t.driven = (List.range n).map (fun k => out.getLsbD (n - 1 - k)) ∧ t.pulses = n ∧ t.sck = false := by
  obtain ⟨-, -, hremaining, hpulses⟩ := InFlight.run_fields answer n (InFlight.start n out)
  refine ⟨?_, ?_, ?_, InFlight.run_sck answer n _ rfl⟩
  · rw [hremaining]; exact Nat.sub_self n
  · rw [InFlight.run_driven]; rfl
  · rw [hpulses]; exact Nat.zero_add n

/-- Settles O10: the bits clocked by induction on the bit-steps (`run_fields`, `run_driven`, `run_sampled`), the pins by what each
phase writes. -/
theorem transactionClocksBitsMsbFirst : Obligations.TransactionClocksBitsMsbFirst := by
  refine ⟨fun n out answer hn => ?_, fun s t sdi => ?_, fun s hs => ?_⟩
  · obtain ⟨hremaining, hdriven, hpulses, hsck⟩ := InFlight.run_start_clocked n out answer
    exact ⟨hremaining, hdriven, hpulses, hsck, InFlight.getLsbD_run_start_sampled hn out answer⟩
  · refine ⟨?drive, ?pulse, ?sample, rfl, ?bitStep, InFlight.bitStep_pulses t sdi⟩
    case drive | pulse | sample | bitStep => simp
  · obtain ⟨hsel, -, hsck⟩ := State.pins_idle hs
    exact ⟨hsel, hsck⟩

end Sys2Proof.Machine
end

section
/-! Decoding inverts encoding: each shape of operands read back from its bytes, then the formats; and the trigger's dispatch
in the words of 30_encoding.md R98. -/

namespace Sys2Proof

/-! ## Operands read back from their bytes -/

/-- The two bytes of a word put together again. -/
@[simp] theorem wordOfBytes_hiByte_loByte (w : Word) : wordOfBytes (hiByte w) (loByte w) = w := by
  apply BitVec.eq_of_getLsbD_eq
  intro j hj
  rw [wordOfBytes, hiByte, loByte, BitVec.getLsbD_append]
  by_cases hlow : j < 8
  · simp [hlow]
  · have hhigh : j - 8 < 8 := by omega
    have hback : 8 + (j - 8) = j := by omega
    simp [hlow, hhigh, hback]

theorem nibbleOperand_encoded (mk : Nibble → Instr) (v : Nibble) (r : List Byte) :
    nibbleOperand mk (v.setWidth 8 :: r) = .ok (mk v, r) := by
  have hfits : v.toNat % 256 < 16 := (Nat.mod_le _ _).trans_lt v.isLt
  simp [nibbleOperand, hfits]

theorem modeOperand_encoded (mk : BitVec 2 → Instr) (m : BitVec 2) (r : List Byte) :
    modeOperand mk (m.setWidth 8 :: r) = .ok (mk m, r) := by
  have hfits : m.toNat % 256 < 4 := (Nat.mod_le _ _).trans_lt m.isLt
  simp [modeOperand, hfits]

theorem wordOperand_encoded (mk : Word → Instr) (w : Word) (r : List Byte) :
    wordOperand mk (wordBytes w ++ r) = .ok (mk w, r) := by
  simp [wordBytes, wordOperand]

theorem slotOperands_encoded (mk : SlotIx → Word → Instr) (ix : SlotIx) (w : Word) (r : List Byte) :
    slotOperands mk (ix.code :: wordBytes w ++ r) = .ok (mk ix w, r) := by
  cases ix <;> simp [wordBytes, slotOperands, SlotIx.code]

theorem packetOperand_encoded {maxPayload : Nat} (mk : Packet → Instr) {p : Packet} (hp : p.wellFormed maxPayload = true)
    (r : List Byte) : packetOperand maxPayload mk (packetBytes p ++ r) = .ok (mk p, r) := by
  have hlen : p.payload.length = maxPayload := by simpa [Packet.wellFormed] using hp
  subst hlen
  simp [packetBytes, packetOperand]

theorem takeWords_encoded (ws : List Word) (r : List Byte) :
    takeWords ws.length (ws.flatMap wordBytes ++ r) = some (ws, r) := by
  induction ws with
  | nil => rfl
  | cons w ws ih => simp [takeWords, wordBytes, ih]

/-- The count fits its byte because the list is shorter than 256 words (log entry 24). -/
theorem wordsOperand_encoded (mk : List Word → Instr) {ws : List Word} (hlen : ws.length < 256) (r : List Byte) :
    wordsOperand mk (BitVec.ofNat 8 ws.length :: ws.flatMap wordBytes ++ r) = .ok (mk ws, r) := by
  have hcount : (BitVec.ofNat 8 ws.length).toNat = ws.length := by
    rw [BitVec.toNat_ofNat]; exact Nat.mod_eq_of_lt hlen
  simp [wordsOperand, hcount, takeWords_encoded]

/-! ## The formats -/

/-- The key of every operation is the one its format's decoder knows it by; what is left is to read back its operands. -/
theorem decode_encode {maxPayload : Nat} {i : Instr} (h : i.wellFormed maxPayload = true) (rest : List Byte) :
    decode maxPayload i.format (encode i ++ rest) = .ok (i, rest) := by
  cases i
  case encodeNibble v | enc v | errpos v => exact nibbleOperand_encoded _ v rest
  case enterTestMode m => exact modeOperand_encoded _ m rest
  case setRegister w | setFrequency w | xfer16 w | write16 w | w w | txbyte w => exact wordOperand_encoded _ w rest
  case peek ix w => exact slotOperands_encoded _ ix w rest
  case submit p | claim p | loadStaging p => exact packetOperand_encoded _ h rest
  case seq ws => exact wordsOperand_encoded _ (of_decide_eq_true h) rest
  case decodeNibble | xfer8 | write8 | syn | dec | unitWrite | clearActive => rfl
  case pollReceived | isIdle | liveness | reset => rfl
  case tIdleStart | tIdleFramingError | tRxType | tRxDataRaw | tRxDataEcc | tTxEmit | tTxFinish | tTestZero | tTestOne
    | tTestAlt => rfl
  case read8 | read16 | unitRead | post | take | rxComplete => rfl

/-- Settles O57: key by key, with the operands read back from the bytes that carry them. -/
theorem decodeInvertsEncode : Obligations.DecodeInvertsEncode :=
  fun _ _ rest h => decode_encode h rest

/-- Settles O58: the words are closed, and the decoder evaluates on each. -/
theorem tableWordsDecodeToTheirOperations : Obligations.TableWordsDecodeToTheirOperations :=
  ⟨rfl, rfl, rfl, rfl, rfl, rfl⟩

end Sys2Proof

namespace Sys2Proof.Machine

open Sys2Proof

/-! ## The dispatch -/

theorem validLength_iff (cfg : Config) (len : Byte) :
    validLength cfg len = true ↔ 0 < len.toNat ∧ len.toNat ≤ cfg.maxPayload := by simp [validLength]

/-- Settles O34: the dispatch of the model (`handlerRule_eq`), its three conditions said of numbers and byte values. -/
theorem dispatchFollowsStateTable : Obligations.DispatchFollowsStateTable := by
  intro s _
  have hone : s.counter = 1#16 ↔ s.counter.toNat = 1 := BitVec.toNat_inj.symm
  rw [handlerRule_eq]
  cases s.mode
  case idle => simp only [validLength_iff]
  case receiving => simp only [hone, isEccType_iff]
  case transmitting | testZero | testOne | testAlternating => rfl

end Sys2Proof.Machine
end

section
/-! The codec (40_ecc_codec.md). A combination of rows is linear in the bits that select it, and a combination of combinations is
one again; every law of `ENC`, `SYN` and `DEC` comes from these two, for every pair of matrices. -/

namespace Sys2Proof

/-! ## Combinations of rows -/

/-- Linearity, with the selecting bits given by a function of the index. -/
theorem xorRows_map_xor (rows : List Nibble) (is : List Nat) (f g : Nat → Bool) :
    xorRows rows (is.map fun i => f i ^^ g i) = xorRows rows (is.map f) ^^^ xorRows rows (is.map g) := by
  induction rows generalizing is with
  | nil => simp [xorRows]
  | cons r rows ih =>
    cases is with
    | nil => simp [xorRows]
    | cons i is =>
      have hhead : (if f i ^^ g i then r else 0#4) = (if f i then r else 0#4) ^^^ (if g i then r else 0#4) := by
        cases f i <;> cases g i <;> simp
      simp only [List.map_cons, xorRows, hhead, ih]
      ac_rfl

theorem xorRows_bitsOf_xor {n : Nat} (rows : List Nibble) (a b : BitVec n) :
    xorRows rows (bitsOf (a ^^^ b)) = xorRows rows (bitsOf a) ^^^ xorRows rows (bitsOf b) := by
  have hbits : (a ^^^ b).getLsbD = fun i => a.getLsbD i ^^ b.getLsbD i := funext fun _ => BitVec.getLsbD_xor
  simp only [bitsOf, hbits, xorRows_map_xor]

/-- By linearity: `0 = 0 ^ 0`. -/
@[simp] theorem xorRows_bitsOf_zero (rows : List Nibble) (n : Nat) : xorRows rows (bitsOf 0#n) = 0#4 := by
  simpa using xorRows_bitsOf_xor rows 0#n 0#n

theorem xorRows_append {rows : List Nibble} {bits : List Bool} (h : rows.length = bits.length) (rows' : List Nibble)
    (bits' : List Bool) : xorRows (rows ++ rows') (bits ++ bits') = xorRows rows bits ^^^ xorRows rows' bits' := by
  induction rows generalizing bits with
  | nil => cases bits with
    | nil => simp [xorRows]
    | cons b bits => cases h
  | cons r rows ih => cases bits with
    | nil => cases h
    | cons b bits => simp [xorRows, ih (Nat.succ.inj h), BitVec.xor_assoc]

/-- A combination of rows, taken as the selection of a second matrix, selects the combination of the composed rows. -/
theorem xorRows_bitsOf_xorRows (rows rows' : List Nibble) (bits : List Bool) :
    xorRows rows (bitsOf (xorRows rows' bits)) = xorRows (rows'.map fun r => xorRows rows (bitsOf r)) bits := by
  induction rows' generalizing bits with
  | nil => simp [xorRows]
  | cons r rows' ih => cases bits with
    | nil => simp [xorRows]
    | cons b bits => cases b <;> simp [xorRows, xorRows_bitsOf_xor, ih]

theorem xorRows_replicate_false (rows : List Nibble) (k : Nat) : xorRows rows (List.replicate k false) = 0#4 := by
  induction rows generalizing k with
  | nil => simp [xorRows]
  | cons r rows ih => cases k with
    | zero => rfl
    | succ k => simp [List.replicate_succ, xorRows, ih]

/-- One selecting bit, at place `j`, selects row `j`. -/
theorem xorRows_single (rows : List Nibble) {n j : Nat} (hj : j < n) :
    xorRows rows ((List.range n).map fun i => decide (i = j)) = rows.getD j 0#4 := by
  induction rows generalizing n j with
  | nil => simp [xorRows]
  | cons r rows ih =>
    obtain ⟨n, rfl⟩ : ∃ m, n = m + 1 := ⟨n - 1, by omega⟩
    cases j with
    | zero => simp [List.range_succ_eq_map, xorRows, Function.comp_def, xorRows_replicate_false]
    | succ j => simp [List.range_succ_eq_map, xorRows, Function.comp_def, ih (Nat.lt_of_succ_lt_succ hj)]

@[simp] theorem bitsOf_length {n : Nat} (v : BitVec n) : (bitsOf v).length = n := by simp [bitsOf]

theorem bitsOf_append {m n : Nat} (p : BitVec m) (v : BitVec n) : bitsOf (p ++ v) = bitsOf v ++ bitsOf p := by
  have hlow : ∀ i ∈ List.range n, (p ++ v).getLsbD i = v.getLsbD i := fun i hi => by
    simp [BitVec.getLsbD_append, List.mem_range.1 hi]
  have hhigh : ∀ i, (p ++ v).getLsbD (n + i) = p.getLsbD i := fun i => by simp [BitVec.getLsbD_append]
  simp [bitsOf, Nat.add_comm m n, List.range_add, Function.comp_def, hhigh, List.map_congr_left hlow]

theorem bitsOf_one_shiftLeft {n b : Nat} (hb : b < n) :
    bitsOf (1#n <<< b) = (List.range n).map fun i => decide (i = b) := by
  refine List.map_congr_left fun i hi => ?_
  have hi : i < n := List.mem_range.1 hi
  simp only [BitVec.getLsbD_shiftLeft, BitVec.getLsbD_one]
  grind

namespace EccMatrices

/-! ## The syndrome -/

theorem syn_xor (m : EccMatrices) (a b : Byte) : m.syn (a ^^^ b) = m.syn a ^^^ m.syn b := xorRows_bitsOf_xor _ a b

@[simp] theorem syn_zero (m : EccMatrices) : m.syn 0#8 = 0#4 := xorRows_bitsOf_zero _ 8

theorem syn_one_shiftLeft (m : EccMatrices) {b : Nat} (hb : b < 8) : m.syn (1#8 <<< b) = m.hRows.getD b 0#4 := by
  rw [syn, bitsOf_one_shiftLeft hb, xorRows_single _ hb]

/-- Rows 0 to 3 answer for the data nibble, rows 4 to 7 for the parity nibble. -/
theorem syn_append (m : EccMatrices) (p v : Nibble) :
    m.syn (p ++ v : BitVec 8) =
      xorRows (m.hRows.take 4) (bitsOf v) ^^^ xorRows (m.hRows.drop 4) (bitsOf p) := by
  have hlen : (m.hRows.take 4).length = (bitsOf v).length := by simp [hRows]
  rw [← xorRows_append hlen, List.take_append_drop, ← bitsOf_append]
  rfl

/-- K1 as an equation of matrices: the data rows of `ECC_H` are those of `ECC_P` seen through its parity rows. -/
theorem k1_iff (m : EccMatrices) :
    m.k1 = true ↔ m.hRows.take 4 = m.pRows.map fun p => xorRows (m.hRows.drop 4) (bitsOf p) := by
  simp [k1, hRows, pRows, and_assoc]

theorem syn_enc {m : EccMatrices} (h : m.k1 = true) (v : Nibble) : m.syn (m.enc v) = 0#4 := by
  rw [enc, syn_append, xorRows_bitsOf_xorRows, ← (k1_iff m).1 h, BitVec.xor_self]

/-- Under K1 the syndrome of a damaged codeword is that of the error pattern. -/
theorem syn_enc_xor {m : EccMatrices} (h : m.k1 = true) (v : Nibble) (e : Byte) : m.syn (m.enc v ^^^ e) = m.syn e := by
  rw [syn_xor, syn_enc h, BitVec.zero_xor]

/-! ## The matching row -/

theorem firstRow_eq_findIdx? (s : Nibble) (j : Nat) (rows : List Nibble) :
    firstRow s j rows = (rows.findIdx? (· == s)).map (· + j) := by
  induction rows generalizing j with
  | nil => rfl
  | cons r rows ih =>
    by_cases h : r = s
    · simp [firstRow, h, List.findIdx?_cons]
    · simp [firstRow, h, List.findIdx?_cons, ih, Function.comp_def, Nat.add_comm, Nat.add_left_comm]

theorem errPos_eq_findIdx? (m : EccMatrices) (s : Nibble) : m.errPos s = m.hRows.findIdx? (· == s) := by
  simp [errPos, firstRow_eq_findIdx?]

theorem errPos_eq_some_iff (m : EccMatrices) (s : Nibble) (j : Nat) :
    m.errPos s = some j ↔ j < 8 ∧ m.hRows.getD j 0#4 = s ∧ ∀ k < j, m.hRows.getD k 0#4 ≠ s := by
  rw [errPos_eq_findIdx?, List.findIdx?_eq_some_iff_getElem, ← exists_prop]
  refine exists_congr fun hj => and_congr ?_ (forall₂_congr fun k hk => ?_)
  · rw [List.getD_eq_getElem _ _ hj, beq_iff_eq]
  · rw [List.getD_eq_getElem _ _ (hk.trans hj), beq_iff_eq]

theorem errPos_eq_none_iff (m : EccMatrices) (s : Nibble) :
    m.errPos s = none ↔ ∀ j < 8, m.hRows.getD j 0#4 ≠ s := by
  rw [errPos_eq_findIdx?, List.findIdx?_eq_none_iff, List.forall_mem_iff_forall_getElem]
  refine forall₂_congr fun j hj => ?_
  rw [List.getD_eq_getElem _ _ hj, beq_eq_false_iff_ne]

theorem k2_iff (m : EccMatrices) : m.k2 = true ↔ m.hRows.Nodup ∧ ∀ r ∈ m.hRows, r ≠ 0#4 := by simp [k2]

/-- Under K2 a row stands at one place. -/
theorem hRows_getD_inj {m : EccMatrices} (h : m.k2 = true) {j k : Nat} (hj : j < 8) (hk : k < 8)
    (hrow : m.hRows.getD j 0#4 = m.hRows.getD k 0#4) : j = k :=
  (List.getD_inj hj hk ((k2_iff m).1 h).1).1 hrow

theorem hRows_getD_ne_zero {m : EccMatrices} (h : m.k2 = true) {j : Nat} (hj : j < 8) : m.hRows.getD j 0#4 ≠ 0#4 := by
  rw [List.getD_eq_getElem _ _ hj]
  exact ((k2_iff m).1 h).2 _ (List.getElem_mem _)

theorem errPos_row {m : EccMatrices} (h : m.k2 = true) {b : Nat} (hb : b < 8) : m.errPos (m.hRows.getD b 0#4) = some b :=
  (errPos_eq_some_iff m _ b).2 ⟨hb, rfl, fun _ hk hrow => hk.ne (hRows_getD_inj h (hk.trans hb) hb hrow)⟩

/-! ## The decoder -/

@[simp] theorem enc_setWidth (m : EccMatrices) (v : Nibble) : (m.enc v).setWidth 4 = v := BitVec.setWidth_append_eq_right

@[simp] theorem enc_extractLsb' (m : EccMatrices) (v : Nibble) :
    (m.enc v).extractLsb' 4 4 = xorRows m.pRows (bitsOf v) := BitVec.extractLsb'_append_eq_left

@[simp] theorem dec_setWidth (m : EccMatrices) (c : Byte) : (m.dec c).setWidth 4 = m.decodeNibble c :=
  BitVec.setWidth_append_eq_right

@[simp] theorem dec_extractLsb' (m : EccMatrices) (c : Byte) : (m.dec c).extractLsb' 4 4 = m.syn c :=
  BitVec.extractLsb'_append_eq_left

theorem decodeNibble_of_syn_zero {m : EccMatrices} {c : Byte} (h : m.syn c = 0#4) : m.decodeNibble c = c.setWidth 4 :=
  if_pos h

theorem decodeNibble_of_row {m : EccMatrices} {c : Byte} {j : Nat} (hs : m.syn c ≠ 0#4) (hj : m.errPos (m.syn c) = some j) :
    m.decodeNibble c = (c ^^^ (1#8 <<< j)).setWidth 4 := by
  simp [decodeNibble, hs, hj]

theorem decodeNibble_of_no_row {m : EccMatrices} {c : Byte} (h : m.errPos (m.syn c) = none) :
    m.decodeNibble c = c.setWidth 4 := by
  simp [decodeNibble, h]

theorem decodeNibble_enc {m : EccMatrices} (h : m.k1 = true) (v : Nibble) : m.decodeNibble (m.enc v) = v := by
  rw [decodeNibble_of_syn_zero (syn_enc h v), enc_setWidth]

theorem syn_enc_flip {m : EccMatrices} (h : m.k1 = true) (v : Nibble) {b : Nat} (hb : b < 8) :
    m.syn (m.enc v ^^^ (1#8 <<< b)) = m.hRows.getD b 0#4 := by
  rw [syn_enc_xor h, syn_one_shiftLeft m hb]

/-- The syndrome of a flipped bit is its row, which K2 finds at that bit only, so the second flip undoes the first. -/
theorem decodeNibble_enc_flip {m : EccMatrices} (h1 : m.k1 = true) (h2 : m.k2 = true) (v : Nibble) {b : Nat} (hb : b < 8) :
    m.decodeNibble (m.enc v ^^^ (1#8 <<< b)) = v := by
  have hsyn := syn_enc_flip h1 v hb
  have hne : m.syn (m.enc v ^^^ (1#8 <<< b)) ≠ 0#4 := hsyn ▸ hRows_getD_ne_zero h2 hb
  have hpos : m.errPos (m.syn (m.enc v ^^^ (1#8 <<< b))) = some b := hsyn ▸ errPos_row h2 hb
  rw [decodeNibble_of_row hne hpos, BitVec.xor_assoc, BitVec.xor_self, BitVec.xor_zero, enc_setWidth]

end EccMatrices

/-! ## The encoder and the two tables -/

/-- The entry of a table over all values of a width is the function's value. -/
theorem getElem?_map_ofNat_range {n : Nat} (f : BitVec n → Byte) (v : BitVec n) :
    ((List.range (2 ^ n)).map fun i => f (BitVec.ofNat n i))[v.toNat]? = some (f v) := by
  simp [v.isLt]

theorem memRead_encTab (s : Machine.State) (v : Nibble) : Machine.memRead s .encTab v.toNat = some (s.cfg.ecc.enc v) :=
  getElem?_map_ofNat_range s.cfg.ecc.enc v

theorem memRead_decTab (s : Machine.State) (c : Byte) : Machine.memRead s .decTab c.toNat = some (s.cfg.ecc.dec c) :=
  getElem?_map_ofNat_range s.cfg.ecc.dec c

namespace EccMatrices

theorem enc_eq_append (m : EccMatrices) (v : Nibble) :
    m.enc v = (((if v.getLsbD 0 then m.p0 else 0#4) ^^^ (if v.getLsbD 1 then m.p1 else 0#4) ^^^
      (if v.getLsbD 2 then m.p2 else 0#4) ^^^ (if v.getLsbD 3 then m.p3 else 0#4)) ++ v : BitVec 8) := by
  rw [enc]
  simp [bitsOf, List.range_succ, pRows, xorRows, BitVec.xor_assoc]

@[simp] theorem enc_zero (m : EccMatrices) : m.enc 0#4 = 0#8 := by
  rw [enc, xorRows_bitsOf_zero]
  rfl

theorem enc_injective (m : EccMatrices) : Function.Injective m.enc := fun v w h => by
  rw [← m.enc_setWidth v, h, enc_setWidth]

theorem enc_xor (m : EccMatrices) (a b : Nibble) : m.enc (a ^^^ b) = m.enc a ^^^ m.enc b := by
  rw [enc, enc, enc, xorRows_bitsOf_xor]
  exact BitVec.xor_append.symm

theorem syn_eq_xor (m : EccMatrices) (c : Byte) :
    m.syn c = (if c.getLsbD 0 then m.h0 else 0#4) ^^^ (if c.getLsbD 1 then m.h1 else 0#4) ^^^
      (if c.getLsbD 2 then m.h2 else 0#4) ^^^ (if c.getLsbD 3 then m.h3 else 0#4) ^^^
      (if c.getLsbD 4 then m.h4 else 0#4) ^^^ (if c.getLsbD 5 then m.h5 else 0#4) ^^^
      (if c.getLsbD 6 then m.h6 else 0#4) ^^^ (if c.getLsbD 7 then m.h7 else 0#4) := by
  rw [syn]
  simp [bitsOf, List.range_succ, hRows, xorRows, BitVec.xor_assoc]

/-! ## The default matrices -/

theorem append_halves (c : Byte) : (c.extractLsb' 4 4 ++ c.setWidth 4 : BitVec 8) = c := by
  rw [c.setWidth_eq_extractLsb' (by decide)]
  exact BitVec.extractLsb'_append_extractLsb' (w := 4) (len := 4)

/-- The parity rows of the default `ECC_H` are the unit rows. -/
theorem xorRows_drop_hRows_defaults (p : Nibble) : xorRows (defaults.hRows.drop 4) (bitsOf p) = p := by
  revert p
  decide

/-- The received parity against the recomputed one: the data rows of the default `ECC_H` are those of `ECC_P`. -/
theorem syn_defaults (c : Byte) :
    defaults.syn c = c.extractLsb' 4 4 ^^^ (defaults.enc (c.setWidth 4)).extractLsb' 4 4 := by
  have hrows : defaults.hRows.take 4 = defaults.pRows := rfl
  calc defaults.syn c = defaults.syn (c.extractLsb' 4 4 ++ c.setWidth 4 : BitVec 8) := by rw [append_halves]
    _ = (defaults.enc (c.setWidth 4)).extractLsb' 4 4 ^^^ c.extractLsb' 4 4 := by
      rw [syn_append, xorRows_drop_hRows_defaults, hrows, enc_extractLsb']
    _ = c.extractLsb' 4 4 ^^^ (defaults.enc (c.setWidth 4)).extractLsb' 4 4 := BitVec.xor_comm _ _

/-- With syndrome 0 the received parity is the recomputed one. -/
theorem syn_defaults_eq_zero_iff (c : Byte) : defaults.syn c = 0#4 ↔ ∃ v, c = defaults.enc v := by
  constructor
  · intro h
    rw [syn_defaults, BitVec.xor_eq_zero_iff, enc_extractLsb'] at h
    refine ⟨c.setWidth 4, ?_⟩
    rw [enc, ← h, append_halves]
  · rintro ⟨v, rfl⟩
    exact syn_enc (by decide) v

/-- The rows of the default `ECC_H` are the odd-weight nibbles; the sum of two of them has even weight, so it is no row
(40_ecc_codec.md R131). -/
theorem errPos_defaults_xor_rows : ∀ a b : Fin 8, a ≠ b →
    defaults.hRows.getD a 0#4 ^^^ defaults.hRows.getD b 0#4 ≠ 0#4 ∧
    defaults.errPos (defaults.hRows.getD a 0#4 ^^^ defaults.hRows.getD b 0#4) = none := by
  decide

end EccMatrices

/-! ## The obligations -/

/-- Settles O5: a codeword has syndrome 0 by K1; a flipped bit adds its row by linearity, which K2 makes the only match. -/
theorem singleBitErrorsAreCorrected : Obligations.SingleBitErrorsAreCorrected := by
  intro m h1 h2 v
  simp only [EccMatrices.dec_setWidth, EccMatrices.dec_extractLsb']
  exact ⟨m.decodeNibble_enc h1 v, m.syn_enc h1 v,
    fun b => ⟨m.decodeNibble_enc_flip h1 h2 v b.isLt, m.syn_enc_flip h1 v b.isLt⟩⟩

/-- Settles O1: the combination of four rows written out, and the table entry by name. -/
theorem encodeXorsSelectedRows : Obligations.EncodeXorsSelectedRows :=
  ⟨EccMatrices.enc_eq_append, memRead_encTab, EccMatrices.enc_zero, by decide, fun m _ _ h => m.enc_injective h⟩

/-- Settles O2: the combination of eight rows written out; K1 makes the parity rows undo the encoder. -/
theorem syndromeXorsSelectedRows : Obligations.SyndromeXorsSelectedRows :=
  ⟨EccMatrices.syn_eq_xor, EccMatrices.syn_zero, fun m v h => m.syn_enc h v, EccMatrices.syn_defaults⟩

/-- Settles O3: `ERRPOS` is the library's first index of a row. -/
theorem errposIsLeastMatchingRow : Obligations.ErrposIsLeastMatchingRow :=
  ⟨EccMatrices.errPos_eq_some_iff, EccMatrices.errPos_eq_none_iff, fun _ _ _ h hj hk => EccMatrices.hRows_getD_inj h hj hk⟩

/-- Settles O4: one lemma a branch. -/
theorem decodeTakesThreeBranches : Obligations.DecodeTakesThreeBranches := by
  unfold Obligations.DecodeTakesThreeBranches
  simp only [EccMatrices.dec_setWidth, EccMatrices.dec_extractLsb']
  exact ⟨fun _ _ => trivial, fun _ _ => EccMatrices.decodeNibble_of_syn_zero, fun _ _ _ => EccMatrices.decodeNibble_of_row,
    fun _ _ _ => EccMatrices.decodeNibble_of_no_row, memRead_decTab, EccMatrices.syn_defaults_eq_zero_iff⟩

/-- Settles O6: `xorRows_bitsOf_xor` for both matrices, and K1. -/
theorem codecIsLinear : Obligations.CodecIsLinear :=
  ⟨EccMatrices.enc_xor, EccMatrices.syn_xor, fun _ v e h => EccMatrices.syn_enc_xor h v e⟩

/-- Settles O7: the syndrome is the sum of the two rows, which no row equals. -/
theorem twoBitErrorsGiveReceivedNibble : Obligations.TwoBitErrorsGiveReceivedNibble := by
  intro v a b hab c
  have hsyn : EccMatrices.defaults.syn c =
      EccMatrices.defaults.hRows.getD a 0#4 ^^^ EccMatrices.defaults.hRows.getD b 0#4 := by
    rw [EccMatrices.syn_xor, EccMatrices.syn_enc_flip (by decide) v a.isLt, EccMatrices.syn_one_shiftLeft _ b.isLt]
  obtain ⟨hne, hnone⟩ := EccMatrices.errPos_defaults_xor_rows a b hab
  rw [← hsyn] at hne hnone
  rw [EccMatrices.dec_setWidth]
  exact ⟨hne, hnone, EccMatrices.decodeNibble_of_no_row hnone⟩

/-- Settles O9: each answers its value in `resp` and writes nothing else. -/
theorem codecInternalsReturnValues : Obligations.CodecInternalsReturnValues :=
  fun _ => ⟨fun _ => rfl, fun _ => rfl, fun _ => rfl, fun _ => rfl⟩

end Sys2Proof
end

section
/-! The register transaction (41_register_transaction.md). With the bus idle a transaction consumes one answer and logs one
triple; while `BUSY` is 1 a request leaves the state as it is. -/

namespace Sys2Proof.Machine

open Sys2Proof

/-! ## The hold

The meaning of every request for the bus is `withBus` around what the request does. -/

theorem withBus_busy {s : State} (h : s.busy = true) (k : Result) : withBus s k = .next s := if_pos h

theorem withBus_idle {s : State} (h : BusIdle s) (k : Result) : withBus s k = k := by simp [withBus, h.1]

theorem withBus_next {s t u : State} (h : BusIdle s) (htu : t = u) : withBus s (.next t) = .next u := by
  rw [withBus_idle h, htu]

/-- A rule of the handler asks for the bus only when a trigger waits; held or not invoked, it changes nothing. -/
theorem invoke_busy {s : State} (hu : s.unreachable = none) (h : s.busy = true) (i : Instr) (body : State → State) :
    invoke i body s = .next s := by
  unfold invoke
  rw [hu]
  dsimp only
  split
  · exact withBus_busy h _
  · rfl

/-! ## One transaction with the bus idle -/

/-- On an idle bus the release of a transaction leaves `BUSY` and the shift state as they were. -/
theorem State.consumeResponse_released {s : State} (h : BusIdle s) (log : List Txn) :
    { s.consumeResponse with busy := false, inFlight := none, trace := log } = { s.consumeResponse with trace := log } := by
  obtain ⟨hbusy, hflight⟩ := h
  rw [← hbusy, ← hflight, ← s.consumeResponse_busy, ← s.consumeResponse_inFlight]

theorem xfer_8_idle {s : State} (h : BusIdle s) (out : Word) :
    xfer 8 out s = ((s.nextResponse.setWidth 8).setWidth 16, { s.consumeResponse with
      trace := s.trace ++ [{ width := 8, out := out, resp := (s.nextResponse.setWidth 8).setWidth 16 }] }) := by
  rw [xfer_8, State.consumeResponse_released h]

theorem xfer_16_idle {s : State} (h : BusIdle s) (out : Word) :
    xfer 16 out s = (s.nextResponse, { s.consumeResponse with
      trace := s.trace ++ [{ width := 16, out := out, resp := s.nextResponse }] }) := by
  rw [xfer_16, State.consumeResponse_released h]

/-- What one 16-bit word sent leaves, written out. -/
theorem State.afterBus_singleton (s : State) (w : Word) : s.afterBus [w] = { s.consumeResponse with
    trace := s.trace ++ [{ width := 16, out := w, resp := s.nextResponse }] } := rfl

/-- The byte a full-duplex use of 8 bits returns is bits 7:0 of the answer. -/
theorem xfer_8_respond {s : State} (h : BusIdle s) (out : Word) :
    (xfer 8 out s).2.respond (.byte ((xfer 8 out s).1.setWidth 8)) = { s.consumeResponse with
      trace := s.trace ++ [{ width := 8, out := out, resp := (s.nextResponse.setWidth 8).setWidth 16 }]
      resp := .byte (s.nextResponse.setWidth 8) } := by
  simp [xfer_8_idle h, State.respond]

/-- The word a full-duplex use of 16 bits returns is the answer. -/
theorem xfer_16_respond {s : State} (h : BusIdle s) (out : Word) :
    (xfer 16 out s).2.respond (.word (xfer 16 out s).1) = { s.consumeResponse with
      trace := s.trace ++ [{ width := 16, out := out, resp := s.nextResponse }]
      resp := .word s.nextResponse } := by
  rw [xfer_16_idle h]; rfl

/-! ## Words in order -/

theorem State.busLog_cons (s : State) (w : Word) (ws : List Word) :
    s.busLog (w :: ws) = { width := 16, out := w, resp := s.nextResponse } :: s.consumeResponse.busLog ws := rfl

theorem State.busLog_out : ∀ (ws : List Word) (s : State), (s.busLog ws).map (fun x => x.out) = ws
  | [], _ => rfl
  | w :: ws, s => by rw [State.busLog_cons, List.map_cons, State.busLog_out ws]

theorem State.busLog_width : ∀ (ws : List Word) (s : State), ∀ x ∈ s.busLog ws, x.width = 16
  | [], _, _, hx => absurd hx List.not_mem_nil
  | w :: ws, s, x, hx => by
    rw [State.busLog_cons, List.mem_cons] at hx
    obtain rfl | hx := hx
    · rfl
    · exact State.busLog_width ws _ x hx

/-- Consuming an answer does not look at the queue or the environment's inputs. -/
theorem State.consumeResponse_queued (s : State) (ins : List Input) (q : List Micro) :
    State.consumeResponse { s with inputs := ins, fgq := q } = { s.consumeResponse with inputs := ins, fgq := q } := by
  unfold State.consumeResponse
  cases s.responses <;> rfl

/-- A word at the head of the queue is enabled while the bus is idle, and the foreground's turn sends it. -/
theorem foregroundTurn_w {s : State} (h : BusIdle s) {w : Word} {q : List Micro} (hq : s.fgq = .w w :: q) :
    foregroundTurn s = .next (State.afterBus { s with fgq := q } [w]) := by
  have hen : microEnabled s (.w w) = true := by simp [microEnabled, h.1]
  have hpop : BusIdle { s with fgq := q } := h
  unfold foregroundTurn
  rw [hq]
  calc (if microEnabled s (.w w) = true then exec (.w w) { s with fgq := q } else .next s)
      _ = withBus { s with fgq := q } (.next (writeWord w { s with fgq := q })) := if_pos hen
      _ = .next (State.afterBus { s with fgq := q } [w]) := withBus_next hpop (writeWord_idle hpop w)

/-! ## The low byte of a unit write -/

theorem unitWriteWord_low {cfg : Config} (h : cfg.wf = true) (b : Byte) : (unitWriteWord cfg b).setWidth 8 = b := by
  have hcmd : cfg.unitWriteCmd.setWidth 8 = 0#8 := by
    simp only [Config.wf, Bool.and_eq_true, beq_iff_eq] at h
    obtain ⟨⟨⟨⟨-, hcmd⟩, -⟩, -⟩, -⟩ := h
    exact hcmd
  rw [unitWriteWord, BitVec.setWidth_or, hcmd]
  simp

/-- Settles O11: the two full-duplex uses return what `xfer_8_respond` and `xfer_16_respond` say, a read being one with zeros
sent; the writes keep `resp`. -/
theorem busPrimitivesPerformOneTransaction : Obligations.BusPrimitivesPerformOneTransaction := by
  intro s h
  refine ⟨fun out => ?xfer8, fun out => ?xfer16, fun out => ?write8, fun out => ?write16, ?read8, ?read16⟩
  case xfer8 | read8 => exact withBus_next h (xfer_8_respond h _)
  case xfer16 | read16 => exact withBus_next h (xfer_16_respond h _)
  case write8 => exact withBus_next h (congrArg Prod.snd (xfer_8_idle h _))
  case write16 => exact withBus_next h (writeWord_idle h out)

/-- Settles O14: `seqWords_idle` for a list in one step, `foregroundTurn_w` for a queued word. -/
theorem sequenceWritesWordsInOrder : Obligations.SequenceWritesWordsInOrder := by
  refine ⟨fun s ws h => ⟨?_, State.busLog_out ws s, State.busLog_width ws s⟩, fun s w q rest hu h hi hq => ?_⟩
  · exact withBus_next h (seqWords_idle ws h)
  · calc step s
        _ = foregroundTurn { s with inputs := rest } := step_cons hu hi
        _ = .next (State.afterBus { s with inputs := rest, fgq := q } [w]) :=
          foregroundTurn_w (s := { s with inputs := rest }) h hq
        _ = _ := by rw [State.afterBus_singleton, State.consumeResponse_queued]; rfl

/-- Settles O12: one 16-bit transaction, of whose answer `nextUnit` is bits 7:0. -/
theorem unitReadReturnsLowByte : Obligations.UnitReadReturnsLowByte := by
  intro s h
  calc exec .unitRead s
      _ = .next ((unitRead s).2.respond (.byte (unitRead s).1)) := withBus_idle h _
      _ = _ := by rw [unitRead_idle h]; rfl

/-- Settles O13: one 16-bit transaction; the constraint on the command leaves bits 7:0 of the word to the unit. -/
theorem unitWriteCarriesByte : Obligations.UnitWriteCarriesByte :=
  ⟨fun _ b h => withBus_next h (unitWrite_idle h b), fun _ b h => unitWriteWord_low h b⟩

/-- Settles O15: every request for the bus stands behind `withBus`, a handler's rule behind `invoke`. -/
theorem busyBusHoldsRequests : Obligations.BusyBusHoldsRequests := by
  intro s h
  have hold := withBus_busy h
  refine ⟨fun _ => ⟨hold _, hold _⟩, fun _ => ⟨hold _, hold _, hold _⟩, hold _, hold _, hold _, fun _ => hold _,
    fun _ => hold _, hold _, fun i hf hu => ?_⟩
  rw [exec_T_invoke hf]
  exact invoke_busy hu h i _

end Sys2Proof.Machine
end

section
/-! The buffer manager (42_buffer_manager.md): its four operations by name, and the ownership of the slots. A step spares the
finished slot, or it completes a frame and makes that slot active. -/

namespace Sys2Proof.Machine

open Sys2Proof

/-! ## The slot that is not active -/

/-- `t` holds the slot that is not active in `s` as it was, and which slot is which. -/
structure Spares (s t : State) : Prop where
  slot : t.slot s.active.other = s.slot s.active.other
  mbPtr : t.mbPtr = s.mbPtr
  active : t.active = s.active

theorem Spares.of_fields {s t : State} (h0 : t.rx0 = s.rx0) (h1 : t.rx1 = s.rx1) (hp : t.mbPtr = s.mbPtr)
    (ha : t.active = s.active) : Spares s t where
  slot := by
    cases s.active
    · exact h1
    · exact h0
  mbPtr := hp
  active := ha

theorem Spares.refl (s : State) : Spares s s := ⟨rfl, rfl, rfl⟩

theorem Spares.trans {s t u : State} (h : Spares s t) (h' : Spares t u) : Spares s u where
  slot := by rw [← h.slot, ← h.active, h'.slot]
  mbPtr := h'.mbPtr.trans h.mbPtr
  active := h'.active.trans h.active

theorem spares_goTo (s : State) (m : Mode) (n : Word) : Spares s (s.goTo m n) := .of_fields rfl rfl rfl rfl

theorem spares_setCounter (s : State) (n : Word) : Spares s { s with counter := n } := .of_fields rfl rfl rfl rfl

theorem spares_afterBus (s : State) (ws : List Word) : Spares s (s.afterBus ws) :=
  .of_fields (s.afterBus_rx0 ws) (s.afterBus_rx1 ws) (s.afterBus_mbPtr ws) (s.afterBus_active ws)

theorem spares_writeActive (s : State) (o : Nat) (b : Byte) : Spares s (s.writeActive o b) :=
  ⟨writeActive_other s o b, State.setSlot_mbPtr _ _ _, State.setSlot_active _ _ _⟩

theorem spares_clearActive (len : Byte) (s : State) : Spares s (clearActive len s) :=
  ⟨clearActive_other s len, State.setSlot_mbPtr _ _ _, State.setSlot_active _ _ _⟩

theorem unitWrite_spares {s : State} (h : BusIdle s) (b : Byte) : Spares s (unitWrite b s) := by
  rw [unitWrite_idle h]; exact spares_afterBus _ _

/-! ## The completion of a frame -/

/-- `t` is `Idle` with the slot that was active in `s` finished and the other one active (42_buffer_manager.md R163). -/
structure Finishes (s t : State) : Prop where
  mode : t.mode = .idle
  mbPtr : t.mbPtr = some s.active
  mbFlag : t.mbFlag = true
  active : t.active = s.active.other

theorem Finishes.of_spares {s t u : State} (h : Spares s t) (h' : Finishes t u) : Finishes s u :=
  ⟨h'.mode, by rw [h'.mbPtr, h.active], h'.mbFlag, by rw [h'.active, h.active]⟩

theorem rxComplete_finishes {s : State} (h : BusIdle s) : Finishes s (rxComplete s) := by
  rw [rxComplete_idle h, postMailbox_frame]
  exact ⟨rfl, congrArg some (s.afterBus_active _), rfl, congrArg SlotIx.other (s.afterBus_active _)⟩

theorem rxComplete_busIdle {s : State} (h : BusIdle s) : BusIdle (rxComplete s) := by
  rw [rxComplete_idle h, postMailbox_frame]
  exact State.afterBus_idle h _

/-! ## What each turn does to the slots -/

/-- The payload rules after the unit read: the next place in the frame, or its completion. -/
theorem rxAdvance_spares_or_finishes {s : State} (h : BusIdle s) (ws : List Word) (e o : Nat) (b : Byte) :
    Spares s (rxAdvance e ((s.afterBus ws).writeActive o b)) ∨
    Finishes s (rxAdvance e ((s.afterBus ws).writeActive o b)) := by
  have hstore : Spares s ((s.afterBus ws).writeActive o b) := (spares_afterBus s ws).trans (spares_writeActive _ o b)
  have hbus : BusIdle ((s.afterBus ws).writeActive o b) := by
    rw [writeActive_frame]; exact State.afterBus_idle h ws
  have hcount := hstore.trans (spares_setCounter _ (((s.afterBus ws).writeActive o b).counter + 1#16))
  unfold rxAdvance
  dsimp only
  split
  · exact .inr (.of_spares hcount (rxComplete_finishes hbus))
  · exact .inl hcount

theorem bodyIdleStart_spares {s : State} (h : BusIdle s) : Spares s (bodyIdleStart s) := by
  rw [bodyIdleStart, unitRead_idle h]
  exact ((spares_afterBus s _).trans (spares_clearActive _ _)).trans (spares_goTo _ _ _)

theorem bodyIdleFramingError_spares {s : State} (h : BusIdle s) : Spares s (bodyIdleFramingError s) := by
  rw [bodyIdleFramingError, unitRead_idle h, absorbFramingError, seqWords_idle _ (State.afterBus_idle h _)]
  exact (spares_afterBus s _).trans (spares_afterBus _ _)

theorem bodyRxType_spares {s : State} (h : BusIdle s) : Spares s (bodyRxType s) := by
  rw [bodyRxType, unitRead_idle h]
  exact ((spares_afterBus s _).trans (spares_writeActive _ _ _)).trans (spares_setCounter _ _)

theorem bodyRxDataRaw_spares_or_finishes {s : State} (h : BusIdle s) :
    Spares s (bodyRxDataRaw s) ∨ Finishes s (bodyRxDataRaw s) := by
  rw [bodyRxDataRaw, unitRead_idle h]
  exact rxAdvance_spares_or_finishes h _ _ _ _

theorem bodyRxDataEcc_spares_or_finishes {s : State} (h : BusIdle s) :
    Spares s (bodyRxDataEcc s) ∨ Finishes s (bodyRxDataEcc s) := by
  rw [bodyRxDataEcc, unitRead_idle h]
  exact rxAdvance_spares_or_finishes h _ _ _ _

theorem bodyTxEmit_spares {s : State} (h : BusIdle s) : Spares s (bodyTxEmit s) :=
  (unitWrite_spares h _).trans (spares_setCounter _ _)

theorem bodyTxFinish_spares {s : State} (h : BusIdle s) : Spares s (bodyTxFinish s) := by
  have h1 := State.afterBus_idle h s.cfg.seqTxDisable
  rw [bodyTxFinish, seqWords_idle _ h, seqWords_idle _ h1, seqWords_idle _ (State.afterBus_idle h1 _)]
  exact (((spares_afterBus s _).trans (spares_afterBus _ _)).trans (spares_afterBus _ _)).trans (spares_goTo _ _ _)

/-- The rule the dispatch selects spares the slot, or it is a payload rule that completes the frame. -/
theorem handlerBody_spares_or_finishes {s : State} (h : BusIdle s) {i : Instr} (hr : s.handlerRule = some i) :
    Spares s (handlerBody i s) ∨ (s.mode = .receiving ∧ Finishes s (handlerBody i s)) := by
  rw [handlerRule_eq] at hr
  cases hr
  cases hm : s.mode
  case idle =>
    dsimp only
    split
    · exact .inl (bodyIdleStart_spares h)
    · exact .inl (bodyIdleFramingError_spares h)
  case receiving =>
    dsimp only
    split
    · exact .inl (bodyRxType_spares h)
    · split
      · exact (bodyRxDataEcc_spares_or_finishes h).imp_right fun hf => ⟨rfl, hf⟩
      · exact (bodyRxDataRaw_spares_or_finishes h).imp_right fun hf => ⟨rfl, hf⟩
  case transmitting =>
    dsimp only
    split
    · exact .inl (bodyTxEmit_spares h)
    · exact .inl (bodyTxFinish_spares h)
  all_goals exact .inl (unitWrite_spares h _)

theorem handlerTurn_spares_or_finishes {s t : State} (h : BusIdle s) (ht : handlerTurn s = .next t) :
    Spares s t ∨ (s.mode = .receiving ∧ Finishes s t) := by
  obtain rfl | ⟨i, hr, rfl⟩ := handlerTurn_body ht
  · exact .inl (.refl t)
  · have hentry : Spares s s.enterHandler := .of_fields rfl rfl rfl rfl
    exact (handlerBody_spares_or_finishes (enterHandler_idle h) hr).imp hentry.trans
      fun ⟨hm, hf⟩ => ⟨hm, hf.of_spares hentry⟩

theorem execW_spares {s t : State} {word : Word} (h : BusIdle s) (he : execW word s = .next t) : Spares s t := by
  rw [execW, withBus_idle h, writeWord_idle h] at he
  cases he
  exact spares_afterBus s _

theorem execClaim_spares {s t : State} {p : Packet} (he : execClaim p s = .next t) : Spares s t := by
  unfold execClaim at he
  split at he <;> cases he
  · exact .of_fields rfl rfl rfl rfl
  · exact .refl s

theorem foregroundTurn_spares {s t : State} (h : BusIdle s) (ht : foregroundTurn s = .next t) : Spares s t := by
  obtain rfl | ⟨m, rest, -, -, he⟩ := foregroundTurn_next ht
  · exact .refl t
  · have hpop : Spares s { s with fgq := rest } := .of_fields rfl rfl rfl rfl
    cases m with
    | w word => exact hpop.trans (execW_spares h he)
    | claim p => exact hpop.trans (execClaim_spares he)

theorem HostEffect.spares {s t : State} (h : HostEffect s t) : Spares s t := by
  cases h <;> exact .of_fields rfl rfl rfl rfl

/-- The effect of each input spares the slot that is not active; only the handler completes a frame. -/
theorem turn_spares_or_finishes {inp : Input} {s t : State} (h : BusIdle s) (ht : turn inp s = .next t) :
    Spares s t ∨ (s.mode = .receiving ∧ Finishes s t) := by
  cases inp with
  | handler => exact handlerTurn_spares_or_finishes h ht
  | foreground => exact .inl (foregroundTurn_spares h ht)
  | host bytes => exact .inl (hostTurn_effect ht).spares
  | trigger | encPort | decPort => cases ht; exact .inl (.of_fields rfl rfl rfl rfl)

theorem takeInput_spares (s : State) : Spares s s.takeInput.2 := by
  rw [takeInput_frame]; exact .of_fields rfl rfl rfl rfl

theorem takeInput_busIdle {s : State} (h : BusIdle s) : BusIdle s.takeInput.2 := by
  rw [takeInput_frame]; exact h

theorem step_spares_or_finishes {s t : State} (h : BusIdle s) (ht : step s = .next t) :
    Spares s t ∨ (s.mode = .receiving ∧ Finishes s t) := by
  obtain ⟨-, hturn⟩ := step_next ht
  have htake := takeInput_spares s
  refine (turn_spares_or_finishes (takeInput_busIdle h) hturn).imp htake.trans fun ⟨hm, hf⟩ => ⟨?_, hf.of_spares htake⟩
  rwa [takeInput_frame] at hm

/-- Settles O21: the finished slot is the one that is not active (10_state.md R37 v), which each step spares or makes active. -/
theorem finishedSlotIsKeptUntilNextCompletion : Obligations.FinishedSlotIsKeptUntilNextCompletion := by
  intro s t p h hp ht
  have hne : p ≠ s.active := by
    rintro rfl
    exact h.sound.mailbox.1 hp
  obtain rfl := SlotIx.eq_other_of_ne hne
  obtain hs | ⟨hm, hf⟩ := step_spares_or_finishes h.sound.bus ht
  · exact .inl ⟨hs.slot, hs.mbPtr.trans hp, hs.active⟩
  · exact .inr ⟨hm, hf.mode, by rw [hf.mbPtr, SlotIx.other_other], hf.active⟩

/-! ## The four operations by name -/

/-- Settles O16: `CLEAR_ACTIVE` byte by byte. -/
theorem clearActiveZeroesPayload : Obligations.ClearActiveZeroesPayload := by
  intro s len h
  refine ⟨clearActive len s, rfl, clearActive_frame s len, clearActive_other s len, ?size, ?type, fun i hi => ?payload,
    fun a ha => ?beyond⟩
  all_goals rw [clearActive_read h]
  case size => exact if_pos rfl
  case type => simp [typeOff, sizeOff]
  case payload =>
    have hin : 2 ≤ payloadOff i ∧ payloadOff i < slotBytes s.cfg := by unfold payloadOff slotBytes; omega
    rw [if_neg (by unfold sizeOff; omega), if_pos hin]
  case beyond =>
    have h0 : a ≠ sizeOff := by unfold slotBytes at ha; unfold sizeOff; omega
    rw [if_neg h0, if_neg (by omega)]

/-- Settles O17: `POST` byte by byte. -/
theorem postSwapsSlotsAndRaisesFlag : Obligations.PostSwapsSlotsAndRaisesFlag := by
  intro s h
  refine ⟨postMailbox s, rfl, postMailbox_frame s, postMailbox_active s, ?_, fun a ha => ?_⟩
  · rw [postMailbox_read h, if_pos rfl]
  · rw [postMailbox_read h, if_neg ha]

/-- Settles O19: `LOAD_STAGING` byte by byte. -/
theorem loadStagingCopiesPacket : Obligations.LoadStagingCopiesPacket := by
  intro s p h
  refine ⟨loadStaging p s, rfl, loadStaging_frame s p, ?size, ?type, fun i hi => ?payload, fun a ha => ?beyond⟩
  all_goals rw [loadStaging_read h]
  case size => exact if_pos rfl
  case type => rw [if_neg (by decide), if_pos rfl]
  case payload =>
    have hin : payloadOff i < slotBytes s.cfg := Nat.add_lt_add_left hi 2
    have hidx : payloadOff i - 2 = i := Nat.add_sub_cancel_left 2 i
    rw [if_neg (by unfold payloadOff sizeOff; omega), if_neg (by unfold payloadOff typeOff; omega), if_pos hin, hidx]
  case beyond =>
    have h2 : 2 ≤ a := (Nat.le_add_right 2 _).trans ha
    rw [if_neg (by unfold sizeOff; omega), if_neg (by unfold typeOff; omega), if_neg ha.not_gt]

theorem takeMailbox_raised {s : State} {p : SlotIx} (hf : s.mbFlag = true) (hp : s.mbPtr = some p)
    (k : Option SlotIx → State → Result) : takeMailbox s k = k (some p) { s with mbFlag := false } := by
  rw [takeMailbox, if_pos hf, hp]

theorem takeMailbox_lowered {s : State} (hf : s.mbFlag = false) (k : Option SlotIx → State → Result) :
    takeMailbox s k = k none s := by
  simp [takeMailbox, hf]

theorem exec_take_raised {s : State} {p : SlotIx} (hf : s.mbFlag = true) (hp : s.mbPtr = some p) :
    exec .take s = .next { s with mbFlag := false, resp := .slot (some p) } :=
  takeMailbox_raised hf hp fun q t => .next (t.respond (.slot q))

theorem exec_take_lowered {s : State} (hf : s.mbFlag = false) : exec .take s = .next { s with resp := .slot none } :=
  takeMailbox_lowered hf fun q t => .next (t.respond (.slot q))

/-- Settles O18: one lemma for each value of the flag. -/
theorem takeTestsAndClearsFlag : Obligations.TakeTestsAndClearsFlag :=
  fun _ => ⟨fun _ => exec_take_raised, exec_take_lowered⟩

/-- Settles O20: the second completion finishes the slot the first one made active, and makes the first slot active again. -/
theorem secondCompletionOverwritesFirst : Obligations.SecondCompletionOverwritesFirst := by
  intro s h
  have hidle := rxComplete_busIdle h
  have hfirst := rxComplete_finishes h
  have hsecond := rxComplete_finishes hidle
  have hptr : (rxComplete (rxComplete s)).mbPtr = some s.active.other := by rw [hsecond.mbPtr, hfirst.active]
  have hact : (rxComplete (rxComplete s)).active = s.active := by rw [hsecond.active, hfirst.active, SlotIx.other_other]
  exact ⟨rxComplete s, rxComplete (rxComplete s), withBus_idle h _, withBus_idle hidle _,
    exec_take_raised hsecond.mbFlag hptr, exec_take_lowered rfl, hact⟩

end Sys2Proof.Machine
end

section
/-! The receive side (43_receive_deframer.md): each rule of the handler as a next state, the two payload rules said once. -/

namespace Sys2Proof.Machine

open Sys2Proof

/-! ## The rule an invocation runs -/

/-- An invocation that may run runs the body of the rule the dispatch selects. -/
theorem exec_selected {s : State} (h : MayInvoke s) {i : Instr} (hr : s.handlerRule = some i) :
    exec i s = .next (handlerBody i s.enterHandler) := by
  rw [exec_T_invoke (handlerRule_format hr), invoke_run h hr]

theorem handlerRule_idleStart {s : State} (hm : s.mode = .idle) (h0 : 0 < s.nextUnit.toNat)
    (hmax : s.nextUnit.toNat ≤ s.cfg.maxPayload) : s.handlerRule = some .tIdleStart := by
  rw [handlerRule_eq, hm]
  exact congrArg some (if_pos ((validLength_iff _ _).2 ⟨h0, hmax⟩))

theorem handlerRule_idleFramingError {s : State} (hm : s.mode = .idle)
    (h : s.nextUnit = 0#8 ∨ s.cfg.maxPayload < s.nextUnit.toNat) : s.handlerRule = some .tIdleFramingError := by
  have hinvalid : ¬ validLength s.cfg s.nextUnit = true := by
    rw [validLength_iff]
    rintro ⟨hpos, hle⟩
    obtain hz | hgt := h
    · rw [hz] at hpos; exact absurd hpos (by decide)
    · omega
  rw [handlerRule_eq, hm]
  exact congrArg some (if_neg hinvalid)

theorem handlerRule_rxType {s : State} (hm : s.mode = .receiving) (hc : s.counter = 1#16) :
    s.handlerRule = some .tRxType := by
  rw [handlerRule_eq, hm]
  exact congrArg some (if_pos hc)

/-- The payload rule for the type of the active slot (30_encoding.md R98). -/
def State.payloadRule (s : State) : Instr :=
  if isEccType (s.activeSlot.read typeOff) then .tRxDataEcc else .tRxDataRaw

theorem handlerRule_payload {s : State} (hm : s.mode = .receiving) (hc : 2 ≤ s.counter.toNat) :
    s.handlerRule = some s.payloadRule := by
  have h1 : s.counter ≠ 1#16 := by
    intro h; rw [h] at hc; exact absurd hc (by decide)
  rw [handlerRule_eq, hm]
  exact congrArg some (if_neg h1)

/-! ## The rules of a frame's first two bytes -/

theorem handlerBody_idleStart {s x : State} (hx : unitRead s.enterHandler = (s.nextUnit, x)) :
    handlerBody .tIdleStart s.enterHandler = (clearActive s.nextUnit x).goTo .receiving 1#16 := by
  simp only [handlerBody, bodyIdleStart, hx]

theorem handlerBody_rxType {s x : State} (hx : unitRead s.enterHandler = (s.nextUnit, x)) :
    handlerBody .tRxType s.enterHandler = { x.writeActive typeOff s.nextUnit with counter := 2#16 } := by
  simp only [handlerBody, bodyRxType, hx]

/-- Settles O22: `CLEAR_ACTIVE` after the entry and the unit read. -/
theorem validLengthStartsFrame : Obligations.ValidLengthStartsFrame := by
  intro s h hc hm h0 hmax
  obtain ⟨x, hx, R⟩ := unitRead_entered h
  have hread := clearActive_read (R.canonical hc) s.nextUnit
  have hother := clearActive_other x s.nextUnit
  simp only [R.active, R.slot, R.cfg] at hread hother
  refine ⟨(clearActive s.nextUnit x).goTo .receiving 1#16, ?run, ?frame, hother, ?size, ?type, fun i hi => ?payload⟩
  case run => rw [exec_selected h (handlerRule_idleStart hm h0 hmax), handlerBody_idleStart hx]
  case frame => rw [clearActive_frame, R.eq]; rfl
  case size => exact (hread _).trans (if_pos rfl)
  case type => exact (hread _).trans (by simp [typeOff, sizeOff])
  case payload =>
    have hin : 2 ≤ payloadOff i ∧ payloadOff i < slotBytes s.cfg := by unfold payloadOff slotBytes; omega
    exact (hread _).trans (by rw [if_neg (by unfold sizeOff; omega), if_pos hin])

/-- Settles O23: the unit read and the FIFO-reset words are one run of words after the entry. -/
theorem invalidLengthIsAbsorbed : Obligations.InvalidLengthIsAbsorbed := by
  intro s h hm hinvalid
  have hb : BusIdle s.enterHandler := h.2.2
  calc exec .tIdleFramingError s
      _ = .next (bodyIdleFramingError s.enterHandler) := exec_selected h (handlerRule_idleFramingError hm hinvalid)
      _ = .next (seqWords s.cfg.seqFifoReset (s.enterHandler.afterBus [s.cfg.unitReadCmd])) := by
        rw [bodyIdleFramingError, unitRead_idle hb, absorbFramingError, State.afterBus_cfg]; rfl
      _ = .next (s.enterHandler.afterBus (s.cfg.unitReadCmd :: s.cfg.seqFifoReset)) := by
        rw [seqWords_idle _ (State.afterBus_idle hb _), ← State.afterBus_cons]
      _ = _ := by rw [enterHandler_afterBus]

/-- Settles O24: one byte stored after the entry and the unit read. -/
theorem typeByteIsStored : Obligations.TypeByteIsStored := by
  intro s h hc hm hone
  obtain ⟨x, hx, R⟩ := unitRead_entered h
  have hread := writeActive_read (R.canonical hc) typeOff s.nextUnit
  have hother := writeActive_other x typeOff s.nextUnit
  simp only [R.active, R.slot] at hread hother
  refine ⟨{ x.writeActive typeOff s.nextUnit with counter := 2#16 }, ?run, ?frame, hother, hread⟩
  case run => rw [exec_selected h (handlerRule_rxType hm hone), handlerBody_rxType hx]
  case frame => rw [writeActive_frame, R.eq]

/-- Settles O27: `POST` after the FIFO-reset words. -/
theorem frameCompletionPostsAndReturnsToIdle : Obligations.FrameCompletionPostsAndReturnsToIdle := by
  intro s hb hc
  have hrun : exec .rxComplete s = .next (rxComplete s) := withBus_idle hb _
  have hc' := afterBus_canonical hc s.cfg.seqFifoReset
  have hread := postMailbox_read hc'
  have hposted := postMailbox_active (s.afterBus s.cfg.seqFifoReset)
  simp only [State.afterBus_active, State.afterBus_slot] at hread hposted
  rw [rxComplete_idle hb] at hrun
  refine ⟨_, hrun, ?frame, hposted, (hread _).trans (if_pos rfl), fun a ha => (hread a).trans (if_neg ha)⟩
  rw [postMailbox_frame, State.afterBus_active]
  rfl

/-! ## The payload rules -/

/-- The byte a payload rule stores: the unit, or the decoded nibble OR-ed into its half of the byte that stands there. -/
def State.rxStored (s : State) : Byte :=
  if isEccType (s.activeSlot.read typeOff) then
    s.activeSlot.read s.rxStoreOff ||| nibbleInByte s.rxOff ((s.cfg.ecc.dec s.nextUnit).setWidth 4)
  else s.nextUnit

theorem handlerBody_payload {s x : State} (hx : unitRead s.enterHandler = (s.nextUnit, x)) :
    handlerBody s.payloadRule s.enterHandler = rxAdvance s.rxEnd (x.writeActive s.rxStoreOff s.rxStored) := by
  unfold State.payloadRule State.rxStored
  split
  · simp only [handlerBody, bodyRxDataEcc, hx]; rfl
  · simp only [handlerBody, bodyRxDataRaw, hx]; rfl

/-- `t` is `s` after an invocation that stored `b` at offset `o` of the active slot: at the next place of a frame that ends at
`e`, or with that frame completed. -/
def PayloadStored (o : Nat) (b : Byte) (e : Nat) (s t : State) : Prop :=
  (∀ a, (t.slot s.active).read a = if a = o then b else (s.slot s.active).read a) ∧
  (if s.counter.toNat + 1 < e then
    t = { s.afterBus [s.cfg.unitReadCmd] with
      trigPend := false, fired := true, counter := s.counter + 1#16, rx0 := t.rx0, rx1 := t.rx1 } ∧
    t.slot s.active.other = s.slot s.active.other
  else
    t = { s.afterBus (s.cfg.unitReadCmd :: s.cfg.seqFifoReset) with
      trigPend := false, fired := true, mode := .idle, counter := 0#16, mbPtr := some s.active, mbFlag := true
      active := s.active.other, rx0 := t.rx0, rx1 := t.rx1 } ∧
    (t.slot s.active.other).read sizeOff = 0#8 ∧
    (∀ a, a ≠ sizeOff → (t.slot s.active.other).read a = (s.slot s.active.other).read a))

section
variable {s t : State} {o e : Nat} {b : Byte}

theorem PayloadStored.kept (h : PayloadStored o b e s t) : t.cfg = s.cfg ∧ t.fgq = s.fgq := by
  obtain ⟨-, hnext⟩ := h
  split at hnext
  all_goals
    rw [hnext.1]
    exact ⟨State.afterBus_cfg _ _, State.afterBus_fgq _ _⟩

theorem PayloadStored.inFrame (h : PayloadStored o b e s t) (hlt : s.counter.toNat + 1 < e) :
    t.mode = s.mode ∧ t.counter = s.counter + 1#16 ∧ t.active = s.active := by
  obtain ⟨-, hnext⟩ := h
  rw [if_pos hlt] at hnext
  rw [hnext.1]
  exact ⟨State.afterBus_mode _ _, rfl, State.afterBus_active _ _⟩

theorem PayloadStored.completed (h : PayloadStored o b e s t) (hend : e ≤ s.counter.toNat + 1) :
    t.mode = .idle ∧ t.counter = 0#16 ∧ t.mbFlag = true ∧ t.mbPtr = some s.active := by
  obtain ⟨-, hnext⟩ := h
  rw [if_neg hend.not_gt] at hnext
  rw [hnext.1]
  exact ⟨rfl, rfl, rfl, rfl⟩

end

theorem activeSlot_size_le {s : State} (h : SizesBounded s) : (s.activeSlot.read sizeOff).toNat ≤ s.cfg.maxPayload := by
  obtain ⟨h0, h1, -⟩ := h
  unfold State.activeSlot
  cases s.active
  · exact h0
  · exact h1

theorem counter_lt_rxEnd {s : State} (hu : s.unreachable = none) (hm : s.mode = .receiving) (h2 : 2 ≤ s.counter.toNat) :
    s.counter.toNat < s.rxEnd := by
  obtain ⟨-, -, -, -, -, -, hend⟩ := (unreachable_none_iff s).1 hu
  exact not_le.1 fun he => hend ⟨hm, h2, he⟩

/-- Inside a frame the payload byte stored is one of the slot: `rxStoreOff_bounds` without the invariant. -/
theorem rxStoreOff_lt_slotBytes {s : State} (hz : SizesBounded s) (h2 : 2 ≤ s.counter.toNat)
    (hc : s.counter.toNat < s.rxEnd) : s.rxStoreOff < slotBytes s.cfg := by
  have hsize := activeSlot_size_le hz
  simp only [State.rxEnd, wirePayload, rxOverhead] at hc
  simp only [State.rxStoreOff, State.rxOff, payloadOff, slotBytes, rxOverhead]
  by_cases ht : isEccType (s.activeSlot.read typeOff) = true
  · rw [if_pos ht] at hc ⊢
    omega
  · rw [if_neg ht] at hc ⊢
    omega

theorem two_le_rxStoreOff (s : State) : 2 ≤ s.rxStoreOff := by
  unfold State.rxStoreOff payloadOff
  split <;> omega

/-- The payload rules in one: the dispatch selects the rule for the type, and the rule stores its byte. -/
theorem exec_payloadRule {s : State} (h : MayInvoke s) (hc : SpacesCanonical s) (hm : s.mode = .receiving)
    (h2 : 2 ≤ s.counter.toNat) :
    ∃ t, exec s.payloadRule s = .next t ∧ PayloadStored s.rxStoreOff s.rxStored s.rxEnd s t := by
  obtain ⟨x, hx, R⟩ := unitRead_entered h
  obtain ⟨-, -, -, -, -, hsizes, -⟩ := (unreachable_none_iff s).1 h.1
  have hend := counter_lt_rxEnd h.1 hm h2
  have hoff := rxStoreOff_lt_slotBytes hsizes h2 hend
  have hwrap : s.counter.toNat + 1 < 65536 := by have := rxEnd_lt s; omega
  refine ⟨rxAdvance s.rxEnd (x.writeActive s.rxStoreOff s.rxStored), ?_, ?_⟩
  · rw [exec_selected h (handlerRule_payload hm h2), handlerBody_payload hx]
  · exact rxAdvance_entered R h.2.2 hc _ _ hoff _ hwrap

/-- Settles O25: the payload rule for a type that is not ECC, its positions written out. -/
theorem rawPayloadByteIsStored : Obligations.RawPayloadByteIsStored := by
  intro s h hc hm h2 htype
  have hraw : ¬ isEccType (s.activeSlot.read typeOff) = true := by simpa [isEccType_iff] using htype
  have hrule : s.payloadRule = .tRxDataRaw := if_neg hraw
  have hoff : s.rxStoreOff = payloadOff (s.counter.toNat - 2) := if_neg hraw
  have hbyte : s.rxStored = s.nextUnit := if_neg hraw
  have hend : s.rxEnd = 2 + (s.activeSlot.read sizeOff).toNat := congrArg (2 + ·) (if_neg hraw)
  have hnext := exec_payloadRule h hc hm h2
  rwa [hrule, hoff, hbyte, hend] at hnext

/-- Settles O26: the payload rule for an ECC type, its positions written out. -/
theorem eccCodewordIsAccumulated : Obligations.EccCodewordIsAccumulated := by
  intro s h hc hm h2 htype off n old
  have hecc : isEccType (s.activeSlot.read typeOff) = true := (isEccType_iff _).2 htype
  have hrule : s.payloadRule = .tRxDataEcc := if_pos hecc
  have hoff : s.rxStoreOff = payloadOff (off / 2) := if_pos hecc
  have hbyte : s.rxStored = old ||| (if off % 2 = 1 then n <<< 4 else n) := by
    rw [State.rxStored, if_pos hecc, nibbleInByte_eq, hoff]; rfl
  have hend : s.rxEnd = 2 + 2 * (s.activeSlot.read sizeOff).toNat := by
    rw [State.rxEnd, wirePayload, if_pos hecc, Nat.mul_comm]; rfl
  have hnext := exec_payloadRule h hc hm h2
  rwa [hrule, hoff, hbyte, hend] at hnext

end Sys2Proof.Machine
end

section
/-! The round trip of a frame (43_receive_deframer.md R189): the wire bytes of a staged packet, replayed one trigger each to an
idle engine, build the packet up in the slot that was active. -/

namespace Sys2Proof.Machine

open Sys2Proof

/-! ## Triggers and units, one after another -/

/-- The state an invocation starts in when a trigger has just arrived: its two inputs are taken and the answers wait. -/
def State.primed (s : State) (answers : List Word) : State :=
  { s with inputs := [], responses := answers, trigPend := true }

theorem Inv.primed {s : State} (h : Inv s) (answers : List Word) : Inv (s.primed answers) := h

theorem Inv.mayInvoke_primed {s : State} (h : Inv s) (answers : List Word) : MayInvoke (s.primed answers) :=
  ⟨(h.primed answers).unreachable_none, rfl, h.sound.bus⟩

/-- The unit a replayed byte is read as. -/
theorem primed_nextUnit (s : State) (u : Byte) : (s.primed [u.setWidth 16]).nextUnit = u := by
  show (u.setWidth 16).setWidth 8 = u
  simp

theorem triggered_eq {s : State} (h : Inv s) (answers : List Word) :
    triggered answers s = handlerTurn (s.primed answers) := by
  have harrives : Inv { s with inputs := [.trigger, .handler], responses := answers } := h
  have hwaits : Inv { s with inputs := [.handler], responses := answers, trigPend := true } := h
  calc triggered answers s
      _ = step { s with inputs := [.handler], responses := answers, trigPend := true } := by
        rw [triggered, step_cons harrives.unreachable_none rfl]; rfl
      _ = handlerTurn (s.primed answers) := step_cons hwaits.unreachable_none rfl

/-- A trigger that arrives in a state of the invariant runs the rule the dispatch selects, which keeps the invariant. -/
theorem triggered_selected {s t : State} (h : Inv s) {answers : List Word} {i : Instr}
    (hr : (s.primed answers).handlerRule = some i) (he : exec i (s.primed answers) = .next t) :
    triggered answers s = .next t ∧ Inv t := by
  have hturn : handlerTurn (s.primed answers) = .next t := (handlerTurn_run rfl hr).trans he
  exact ⟨(triggered_eq h answers).trans hturn, handlerTurn_inv (h.primed answers) hturn⟩

theorem receiveUnits_cons {u : Byte} {us : List Byte} {s t : State} (h : triggered [u.setWidth 16] s = .next t) :
    receiveUnits (u :: us) s = receiveUnits us t := by
  rw [receiveUnits, h]

/-- What holds before unit `a`, and after each unit if it held before it, holds after `k` units. -/
theorem receiveUnits_induction {P : Nat → State → Prop} {f : Nat → Byte} {k : Nat} : ∀ {a : Nat} {s : State},
    (∀ n t, a ≤ n → n < a + k → P n t → ∃ u, triggered [(f n).setWidth 16] t = .next u ∧ P (n + 1) u) → P a s →
    ∃ t, receiveUnits ((List.range' a k).map f) s = .next t ∧ P (a + k) t := by
  induction k with
  | zero => exact fun {_ s} _ hs => ⟨s, rfl, hs⟩
  | succ k ih =>
    intro a s hstep hs
    obtain ⟨u, hu, hpu⟩ := hstep a s (Nat.le_refl a) (by omega) hs
    obtain ⟨t, ht, hpt⟩ := ih (fun n v h1 h2 => hstep n v (by omega) (by omega)) hpu
    refine ⟨t, ?_, by rwa [show a + (k + 1) = a + 1 + k by omega]⟩
    rw [List.range'_succ, List.map_cons, receiveUnits_cons hu, ht]

/-! ## The wire bytes of a frame -/

/-- Wire byte `n` of the frame in the staging buffer, counted from the size byte, as it arrives. -/
def State.damagedByte (x : State) (flips : Nat → Option (Fin 8)) (n : Nat) : Byte :=
  if isEccType (x.txs.read typeOff) ∧ 2 ≤ n then flipAt (flips n) (x.txByte (n + 3)) else x.txByte (n + 3)

theorem damagedBytes_eq (x : State) (flips : Nat → Option (Fin 8)) :
    x.damagedBytes flips = (List.range' 0 (2 + wirePayload x.txs)).map (x.damagedByte flips) := by
  have hlen : x.txEnd - 3 = 2 + wirePayload x.txs := by unfold State.txEnd txOverhead; omega
  rw [State.damagedBytes, hlen, List.range_eq_range']
  rfl

theorem damagedByte_size (x : State) (flips : Nat → Option (Fin 8)) : x.damagedByte flips 0 = x.txs.read sizeOff :=
  if_neg (by omega)

theorem damagedByte_type (x : State) (flips : Nat → Option (Fin 8)) : x.damagedByte flips 1 = x.txs.read typeOff :=
  if_neg (by omega)

theorem damagedByte_raw {x : State} (h : ¬ isEccType (x.txs.read typeOff) = true) (flips : Nat → Option (Fin 8))
    (k : Nat) : x.damagedByte flips (k + 2) = x.txs.read (payloadOff k) := by
  rw [State.damagedByte, if_neg (fun hc => h hc.1)]
  exact if_neg h

theorem damagedByte_ecc {x : State} (h : isEccType (x.txs.read typeOff) = true) (flips : Nat → Option (Fin 8))
    (k : Nat) : x.damagedByte flips (k + 2) =
      flipAt (flips (k + 2)) (x.cfg.ecc.enc (nibbleOfByte k (x.txs.read (payloadOff (k / 2))))) := by
  rw [State.damagedByte, if_pos ⟨h, by omega⟩]
  exact congrArg _ (if_pos h)

theorem codec_of_wf {cfg : Config} (h : cfg.wf = true) : cfg.ecc.k1 = true ∧ cfg.ecc.k2 = true := by
  simp only [Config.wf, Bool.and_eq_true] at h
  obtain ⟨⟨⟨⟨⟨⟨-, hk1⟩, hk2⟩, -⟩, -⟩, -⟩, -⟩ := h
  exact ⟨hk1, hk2⟩

/-- A codeword decodes to its nibble with at most one bit flipped (40_ecc_codec.md R129). -/
theorem decodeNibble_flipAt {m : EccMatrices} (h1 : m.k1 = true) (h2 : m.k2 = true) (b : Option (Fin 8)) (v : Nibble) :
    m.decodeNibble (flipAt b (m.enc v)) = v := by
  cases b with
  | none => exact m.decodeNibble_enc h1 v
  | some j => exact m.decodeNibble_enc_flip h1 h2 v j.isLt

/-! ## The payload as it builds up -/

/-- Payload byte `i` of the receiving slot after `k` payload units of the frame in `m`. -/
def arrived (m : Memory) (k i : Nat) : Byte :=
  if isEccType (m.read typeOff) then
    (if 2 * i < k then nibbleInByte 0 (nibbleOfByte 0 (m.read (payloadOff i))) else 0#8) |||
    (if 2 * i + 1 < k then nibbleInByte 1 (nibbleOfByte 1 (m.read (payloadOff i))) else 0#8)
  else if i < k then m.read (payloadOff i) else 0#8

@[simp] theorem arrived_zero (m : Memory) (i : Nat) : arrived m 0 i = 0#8 := by simp [arrived]

theorem nibbleInByte_mod (off : Nat) (n : Nibble) : nibbleInByte off n = nibbleInByte (off % 2) n := by
  simp [nibbleInByte]

theorem nibbleOfByte_mod (off : Nat) (b : Byte) : nibbleOfByte off b = nibbleOfByte (off % 2) b := by
  simp [nibbleOfByte]

theorem nibbleInByte_halves (b : Byte) :
    nibbleInByte 0 (nibbleOfByte 0 b) ||| nibbleInByte 1 (nibbleOfByte 1 b) = b := by
  refine BitVec.eq_of_getLsbD_eq fun i hi => ?_
  by_cases h4 : i < 4
  · simp [nibbleInByte_eq, nibbleOfByte, h4, hi]
  · have hback : 4 + (i - 4) = i := by omega
    have hin : i - 4 < 4 := by omega
    simp [nibbleInByte_eq, nibbleOfByte, h4, hi, hback, hin]

theorem arrived_all (m : Memory) (i : Nat) :
    arrived m (wirePayload m) i = if i < (m.read sizeOff).toNat then m.read (payloadOff i) else 0#8 := by
  unfold arrived wirePayload
  by_cases ht : isEccType (m.read typeOff) = true
  · simp only [if_pos ht]
    by_cases hi : i < (m.read sizeOff).toNat
    · rw [if_pos (by omega), if_pos (by omega), if_pos hi, nibbleInByte_halves]
    · rw [if_neg (by omega), if_neg (by omega), if_neg hi]; rfl
  · simp only [if_neg ht]

theorem arrived_succ_raw {m : Memory} (h : ¬ isEccType (m.read typeOff) = true) (k i : Nat) :
    arrived m (k + 1) i = if i = k then m.read (payloadOff k) else arrived m k i := by
  simp only [arrived, if_neg h]
  by_cases hi : i = k
  · rw [if_pos hi, if_pos (by omega), hi]
  · rw [if_neg hi]
    exact if_congr (by omega) rfl rfl

theorem arrived_succ_ecc {m : Memory} (h : isEccType (m.read typeOff) = true) (k i : Nat) :
    arrived m (k + 1) i = if i = k / 2 then
      arrived m k i ||| nibbleInByte k (nibbleOfByte k (m.read (payloadOff (k / 2)))) else arrived m k i := by
  simp only [arrived, if_pos h]
  by_cases hi : i = k / 2
  · rw [if_pos hi, ← hi, nibbleInByte_mod k, nibbleOfByte_mod k]
    obtain hk | hk := Nat.mod_two_eq_zero_or_one k
    · obtain rfl : k = 2 * i := by omega
      simp
    · obtain rfl : k = 2 * i + 1 := by omega
      simp
  · rw [if_neg hi]
    have hlow : 2 * i < k + 1 ↔ 2 * i < k := by omega
    have hhigh : 2 * i + 1 < k + 1 ↔ 2 * i + 1 < k := by omega
    simp only [hlow, hhigh]

/-! ## The frame byte by byte -/

/-- `t` is `s` after the first `n` wire bytes, at least one, of the frame in `m`: they stand in the slot that was active, and the
last of them delivers the slot. -/
structure Replayed (s : State) (m : Memory) (n : Nat) (t : State) : Prop where
  inv : Inv t
  cfg : t.cfg = s.cfg
  fgq : t.fgq = s.fgq
  size : (t.slot s.active).read sizeOff = m.read sizeOff
  type : 2 ≤ n → (t.slot s.active).read typeOff = m.read typeOff
  payload : ∀ i < s.cfg.maxPayload, (t.slot s.active).read (payloadOff i) = arrived m (n - 2) i
  inFrame : n < 2 + wirePayload m → t.mode = .receiving ∧ t.counter.toNat = n ∧ t.active = s.active
  delivered : 2 + wirePayload m ≤ n → t.mode = .idle ∧ t.counter = 0#16 ∧ t.mbFlag = true ∧ t.mbPtr = some s.active

/-- The size byte, replayed to an idle engine. -/
theorem replayed_size {s : State} {m : Memory} (h : Inv s) (hm : s.mode = .idle) (h0 : 0 < (m.read sizeOff).toNat)
    (hmax : (m.read sizeOff).toNat ≤ s.cfg.maxPayload) :
    ∃ t, triggered [(m.read sizeOff).setWidth 16] s = .next t ∧ Replayed s m 1 t := by
  have hu := primed_nextUnit s (m.read sizeOff)
  have h0' := hu ▸ h0
  have hmax' := hu ▸ hmax
  obtain ⟨t, he, ht, -, hsize, -, hpayload⟩ :=
    validLengthStartsFrame _ (h.mayInvoke_primed _) (h.primed _).sound.spaces hm h0' hmax'
  obtain ⟨hrun, hinv⟩ := triggered_selected h (handlerRule_idleStart hm h0' hmax') he
  have hwire := size_le_wirePayload m
  refine ⟨t, hrun, hinv, ?cfg, ?fgq, hsize.trans hu, fun h2 => by omega, fun i hi => ?payload,
    fun _ => ⟨?mode, ?counter, ?active⟩, fun hend => by omega⟩
  case payload => rw [arrived_zero]; exact hpayload i hi
  all_goals rw [ht]
  case cfg => exact State.afterBus_cfg _ _
  case fgq => exact State.afterBus_fgq _ _
  case active => exact State.afterBus_active _ _
  case counter => rfl

/-- The type byte, after the size byte. -/
theorem replayed_type {s t : State} {m : Memory} (h0 : 0 < (m.read sizeOff).toNat) (h : Replayed s m 1 t) :
    ∃ u, triggered [(m.read typeOff).setWidth 16] t = .next u ∧ Replayed s m 2 u := by
  have hwire := size_le_wirePayload m
  obtain ⟨hm, hc, hact⟩ := h.inFrame (by omega)
  have hone : t.counter = 1#16 := BitVec.eq_of_toNat_eq hc
  obtain ⟨u, he, hu, -, hread⟩ :=
    typeByteIsStored _ (h.inv.mayInvoke_primed [(m.read typeOff).setWidth 16]) (h.inv.primed _).sound.spaces hm hone
  obtain ⟨hrun, hinv⟩ := triggered_selected h.inv (handlerRule_rxType hm hone) he
  have hread' : ∀ a, (u.slot s.active).read a = if a = typeOff then m.read typeOff else (t.slot s.active).read a := by
    rw [← hact]; intro a; rw [← primed_nextUnit t (m.read typeOff)]; exact hread a
  refine ⟨u, hrun, hinv, ?cfg, ?fgq, ?size, fun _ => ?type, fun i hi => ?payload, fun _ => ⟨?mode, ?counter, ?active⟩,
    fun hend => by omega⟩
  case size => rw [hread', if_neg (by decide), h.size]
  case type => rw [hread', if_pos rfl]
  case payload => rw [hread', if_neg (by unfold payloadOff typeOff; omega)]; exact h.payload i hi
  all_goals rw [hu]
  case cfg => exact (State.afterBus_cfg _ _).trans h.cfg
  case fgq => exact (State.afterBus_fgq _ _).trans h.fgq
  case mode => exact (State.afterBus_mode _ _).trans hm
  case active => exact (State.afterBus_active _ _).trans hact
  case counter => rfl

/-- What a payload rule stores of unit `k` of the payload is what has then arrived. -/
theorem rxStored_arrived {x y : State} {flips : Nat → Option (Fin 8)} {k i : Nat} (hcfg : y.cfg = x.cfg)
    (hwf : x.cfg.wf = true) (htype : y.activeSlot.read typeOff = x.txs.read typeOff) (hoff : y.rxOff = k)
    (hunit : y.nextUnit = x.damagedByte flips (k + 2)) (hold : y.activeSlot.read (payloadOff i) = arrived x.txs k i) :
    (if payloadOff i = y.rxStoreOff then y.rxStored else y.activeSlot.read (payloadOff i)) = arrived x.txs (k + 1) i := by
  have hinj : ∀ j, payloadOff i = payloadOff j ↔ i = j := fun j => Nat.add_left_cancel_iff
  by_cases ht : isEccType (x.txs.read typeOff) = true
  · obtain ⟨hk1, hk2⟩ := codec_of_wf hwf
    have hnibble : (y.cfg.ecc.dec y.nextUnit).setWidth 4 = nibbleOfByte k (x.txs.read (payloadOff (k / 2))) := by
      rw [hcfg, hunit, damagedByte_ecc ht, EccMatrices.dec_setWidth, decodeNibble_flipAt hk1 hk2]
    have hstore : y.rxStoreOff = payloadOff (k / 2) := by rw [State.rxStoreOff, htype, if_pos ht, hoff]
    rw [arrived_succ_ecc ht, State.rxStored, htype, if_pos ht, hoff, hnibble, hstore]
    by_cases hi : i = k / 2
    · rw [if_pos ((hinj _).2 hi), if_pos hi, ← hi, hold]
    · rw [if_neg (mt (hinj _).1 hi), if_neg hi, hold]
  · have hstore : y.rxStoreOff = payloadOff k := by rw [State.rxStoreOff, htype, if_neg ht, hoff]
    rw [arrived_succ_raw ht, State.rxStored, htype, if_neg ht, hunit, damagedByte_raw ht, hstore, hold]
    exact if_congr (hinj k) rfl rfl

/-- The payload units, after the type byte; the last one completes the frame. -/
theorem replayed_payload {s t x : State} {flips : Nat → Option (Fin 8)} {k : Nat} (hcfg : s.cfg = x.cfg)
    (hk : k < wirePayload x.txs) (h : Replayed s x.txs (k + 2) t) :
    ∃ u, triggered [(x.damagedByte flips (k + 2)).setWidth 16] t = .next u ∧ Replayed s x.txs (k + 3) u := by
  obtain ⟨hm, hc, hact⟩ := h.inFrame (by omega)
  set y := t.primed [(x.damagedByte flips (k + 2)).setWidth 16] with hy
  have hslot : y.activeSlot = t.slot s.active := congrArg t.slot hact
  have hsize := h.size
  have htype := h.type (by omega)
  rw [← hslot] at hsize htype
  have hend : y.rxEnd = 2 + wirePayload x.txs := by
    simp only [State.rxEnd, wirePayload, rxOverhead, hsize, htype]
  have hoff : y.rxOff = k := congrArg (· - 2) hc
  have hcy : y.counter.toNat = k + 2 := hc
  have h2 : 2 ≤ y.counter.toNat := by omega
  obtain ⟨u, he, hstored⟩ := exec_payloadRule (h.inv.mayInvoke_primed _) (h.inv.primed _).sound.spaces hm h2
  obtain ⟨hrun, hinv⟩ := triggered_selected h.inv (handlerRule_payload hm h2) he
  obtain ⟨hucfg, hufgq⟩ := hstored.kept
  have hread : ∀ a, (u.slot s.active).read a = if a = y.rxStoreOff then y.rxStored else y.activeSlot.read a := by
    rw [← hact]; exact hstored.1
  have hstore : 2 ≤ y.rxStoreOff := two_le_rxStoreOff y
  refine ⟨u, hrun, hinv, hucfg.trans h.cfg, hufgq.trans h.fgq, ?size, fun _ => ?type, fun i hi => ?payload,
    fun hlt => ?inFrame, fun hge => ?delivered⟩
  case size => rw [hread, if_neg (by unfold sizeOff; omega), hsize]
  case type => rw [hread, if_neg (by unfold typeOff; omega), htype]
  case payload =>
    rw [hread]
    exact rxStored_arrived (h.cfg.trans hcfg) (hcfg ▸ h.cfg ▸ h.inv.sound.cfg) htype hoff (primed_nextUnit _ _)
      (by rw [hslot]; exact h.payload i hi)
  case inFrame =>
    obtain ⟨hmode, hcounter, hactive⟩ := hstored.inFrame (by rw [hend, hcy]; omega)
    have hcount : (y.counter + 1#16).toNat = k + 3 := by
      rw [toNat_counter_succ (by have := rxEnd_lt y; omega), hcy]
    exact ⟨hmode.trans hm, (congrArg BitVec.toNat hcounter).trans hcount, hactive.trans hact⟩
  case delivered =>
    have hdone := hstored.completed (by rw [hend, hcy]; omega)
    rwa [show y.active = s.active from hact] at hdone

/-- All the wire bytes of a frame, replayed to an idle engine with the sender's parameters. -/
theorem receiveUnits_damagedBytes {s x : State} (flips : Nat → Option (Fin 8)) (h : Inv s) (hm : s.mode = .idle)
    (hcfg : s.cfg = x.cfg) (h0 : 0 < (x.txs.read sizeOff).toNat) (hmax : (x.txs.read sizeOff).toNat ≤ s.cfg.maxPayload) :
    ∃ t, receiveUnits (x.damagedBytes flips) s = .next t ∧ Replayed s x.txs (2 + wirePayload x.txs) t := by
  obtain ⟨t1, hrun1, h1⟩ := replayed_size h hm h0 hmax
  obtain ⟨t2, hrun2, h2⟩ := replayed_type h0 h1
  obtain ⟨t, hrun, ht⟩ := receiveUnits_induction (P := Replayed s x.txs) (f := x.damagedByte flips)
    (k := wirePayload x.txs) (fun n u hlo hhi hu => by
      obtain ⟨k, rfl⟩ : ∃ k, n = k + 2 := ⟨n - 2, by omega⟩
      exact replayed_payload hcfg (by omega) hu) h2
  refine ⟨t, ?_, ht⟩
  have hbytes : x.damagedBytes flips = x.txs.read sizeOff :: x.txs.read typeOff ::
      (List.range' 2 (wirePayload x.txs)).map (x.damagedByte flips) := by
    rw [damagedBytes_eq, Nat.add_comm, List.range'_succ, List.range'_succ, List.map_cons, List.map_cons,
      damagedByte_size, damagedByte_type]
  rw [hbytes, receiveUnits_cons hrun1, receiveUnits_cons hrun2, hrun]

/-- `POLL_RECEIVED` with the flag raised (45_host_operations.md R228). -/
theorem exec_pollReceived_raised {s : State} {p : SlotIx} (hq : s.fgq = []) (hf : s.mbFlag = true) (hp : s.mbPtr = some p) :
    exec .pollReceived s = .next { s with
      mbFlag := false, resp := .packet (some (p, (s.slot p).packet s.cfg.maxPayload)) } :=
  (accept_ready hq _).trans (takeMailbox_raised hf hp _)

/-- Settles O60: the bytes arrive one after another (`receiveUnits_damagedBytes`), and what has arrived at the frame end is the
payload as far as the size goes (`arrived_all`). -/
theorem replayedFrameIsDelivered : Obligations.ReplayedFrameIsDelivered := by
  intro s p flips h hm hq h0 hmax _ _
  obtain ⟨x, hload, -, hsize, htype, hstaged, -⟩ := loadStagingCopiesPacket s p h.sound.spaces
  cases hload
  obtain ⟨t, hrun, ht⟩ := receiveUnits_damagedBytes (x := loadStaging p s) flips h hm rfl (by rwa [hsize]) (by rwa [hsize])
  obtain ⟨hmode, hcounter, hflag, hptr⟩ := ht.delivered (Nat.le_refl _)
  refine ⟨t, _, hrun, hmode, hcounter, hflag, hptr, exec_pollReceived_raised (ht.fgq.trans hq) hflag hptr, ?_⟩
  have hpayload : ∀ i ∈ List.range s.cfg.maxPayload, (t.slot s.active).read (payloadOff i) =
      if i < p.size.toNat then p.payload.getD i 0#8 else 0#8 := fun i hi => by
    have hi := List.mem_range.1 hi
    rw [ht.payload i hi, Nat.add_sub_cancel_left, arrived_all, hsize, hstaged i hi]
  simp only [Memory.packet, ht.size, ht.type (by omega), hsize, htype, ht.cfg, List.map_congr_left hpayload]

end Sys2Proof.Machine
end

section
/-! The transmit side (44_transmit_framer_test.md): the unit at each index of a frame, and the rules of `Transmitting` and of
the test states as next states. -/

namespace Sys2Proof.Machine

open Sys2Proof

/-! ## The unit at a frame index -/

theorem exec_txbyte_inFrame {s : State} {c : Word} (hsize : (s.txs.read sizeOff).toNat ≤ s.cfg.maxPayload)
    (hc : c.toNat < s.txEnd) : exec (.txbyte c) s = .next (s.respond (.byte (s.txByte c.toNat))) :=
  (if_neg hsize.not_gt).trans (if_pos hc)

theorem exec_txbyte_outsideFrame {s : State} {c : Word} (hsize : (s.txs.read sizeOff).toNat ≤ s.cfg.maxPayload)
    (hc : s.txEnd ≤ c.toNat) :
    exec (.txbyte c) s = .next { s with resp := .byte (Config.freeTxByte s.draws), draws := s.draws + 1 } :=
  (if_neg hsize.not_gt).trans (if_neg hc.not_gt)

theorem txByte_congr {s t : State} (hcfg : t.cfg = s.cfg) (htxs : t.txs = s.txs) (c : Nat) : t.txByte c = s.txByte c := by
  unfold State.txByte
  rw [hcfg, htxs]

theorem txByte_payload_ecc {s : State} (h : isEccType (s.txs.read typeOff) = true) (off : Nat) :
    s.txByte (off + 5) = s.cfg.ecc.enc (nibbleOfByte off (s.txs.read (payloadOff (off / 2)))) := if_pos h

theorem txByte_payload_raw {s : State} (h : ¬ isEccType (s.txs.read typeOff) = true) (off : Nat) :
    s.txByte (off + 5) = s.txs.read (payloadOff off) := if_neg h

theorem nibbleOfByte_even {off : Nat} (h : off % 2 = 0) (b : Byte) : nibbleOfByte off b = b.extractLsb' 0 4 := by
  rw [nibbleOfByte, if_neg (by omega), BitVec.setWidth_eq_extractLsb' (by decide)]

theorem nibbleOfByte_odd {off : Nat} (h : ¬ off % 2 = 0) (b : Byte) : nibbleOfByte off b = b.extractLsb' 4 4 :=
  if_pos (by omega)

/-- Settles O28: the five bytes before the payload one by one, then the payload by type and by parity of the offset. -/
theorem txbyteFollowsFrameLayout : Obligations.TxbyteFollowsFrameLayout := by
  intro s c hsize ecc size off hc
  have hecc : isEccType (s.txs.read typeOff) = true ↔ ecc := isEccType_iff _
  have hend : s.txEnd = 5 + (if ecc then 2 * size else size) := by
    simp only [State.txEnd, txOverhead, wirePayload, hecc, size, Nat.mul_comm]
  rw [exec_txbyte_inFrame hsize (hend ▸ hc)]
  refine congrArg (fun b => Host.Outcome.next (s.respond (.byte b))) ?_
  iterate 5
    split
    next hindex => rw [hindex]; rfl
  have hoff : c.toNat = off + 5 := by bv_omega
  rw [hoff]
  split
  next ht =>
    rw [txByte_payload_ecc (hecc.2 ht)]
    split
    next heven => rw [nibbleOfByte_even heven]
    next hodd => rw [nibbleOfByte_odd hodd]
  next ht => rw [txByte_payload_raw (mt hecc.1 ht)]

/-- Settles O29: at and above the frame end the byte is a free value. -/
theorem txbyteOutsideFrameReturnsSomeByte : Obligations.TxbyteOutsideFrameReturnsSomeByte :=
  fun s _ hsize hc => ⟨Config.freeTxByte s.draws, exec_txbyte_outsideFrame hsize hc⟩

/-! ## The rules of the transmit side -/

theorem handlerRule_txEmit {s : State} (hm : s.mode = .transmitting) (hc : s.counter.toNat < s.txEnd) :
    s.handlerRule = some .tTxEmit := by
  rw [handlerRule_eq, hm]
  exact congrArg some (if_pos hc)

theorem handlerRule_txFinish {s : State} (hm : s.mode = .transmitting) (hc : s.txEnd ≤ s.counter.toNat) :
    s.handlerRule = some .tTxFinish := by
  rw [handlerRule_eq, hm]
  exact congrArg some (if_neg hc.not_gt)

/-- A unit written after the entry of an invocation. -/
theorem unitWrite_enterHandler {s : State} (h : BusIdle s) (b : Byte) : unitWrite b s.enterHandler =
    { s.afterBus [s.cfg.unitWriteCmd ||| b.setWidth 16] with trigPend := false, fired := true } := by
  rw [unitWrite_idle (enterHandler_idle h), enterHandler_afterBus]
  rfl

theorem bodyTxFinish_idle {s : State} (h : BusIdle s) : bodyTxFinish s =
    (s.afterBus (s.cfg.seqTxDisable ++ s.cfg.seqRxEnable ++ s.cfg.seqFifoReset)).goTo .idle 0#16 := by
  have h1 := State.afterBus_idle h s.cfg.seqTxDisable
  have h2 := State.afterBus_idle h1 s.cfg.seqRxEnable
  rw [bodyTxFinish, seqWords_idle _ h, seqWords_idle _ h1, seqWords_idle _ h2, State.afterBus_append,
    State.afterBus_append]

/-- What a unit written by an invocation leaves. -/
theorem bodyTxEmit_enterHandler {s : State} (h : BusIdle s) : bodyTxEmit s.enterHandler =
    { s.afterBus [s.cfg.unitWriteCmd ||| (s.txByte s.counter.toNat).setWidth 16] with
      trigPend := false, fired := true, counter := s.counter + 1#16 } := by
  rw [bodyTxEmit, unitWrite_enterHandler h]
  simp only [State.afterBus_counter]
  rfl

/-- Settles O30: one unit after the entry, then the count. -/
theorem transmitEmitsOneUnit : Obligations.TransmitEmitsOneUnit := by
  intro s h hm hc
  rw [exec_selected h (handlerRule_txEmit hm hc)]
  exact congrArg _ (bodyTxEmit_enterHandler h.2.2)

/-- Settles O31: the three sequences are one run of words after the entry. -/
theorem transmitFinishRearmsReceive : Obligations.TransmitFinishRearmsReceive := by
  intro s h hm hc
  rw [exec_selected h (handlerRule_txFinish hm hc), handlerBody, bodyTxFinish_idle (enterHandler_idle h.2.2),
    enterHandler_afterBus]
  rfl

/-- Settles O32: the dispatch selects the state's own rule, and its unit follows the entry. -/
theorem testTonesWriteTheirPattern : Obligations.TestTonesWriteTheirPattern := by
  intro s h
  have hunit := unitWrite_enterHandler h.2.2
  refine ⟨fun hm => ?zero, fun hm => ?one, fun hm => ?alternating⟩
  all_goals
    rw [exec_selected h (by rw [handlerRule_eq, hm])]
    exact congrArg _ (hunit _)

end Sys2Proof.Machine
end

section
/-! The ways out of a test state (44_transmit_framer_test.md R208): what each turn can do to `STATE` in one. -/

namespace Sys2Proof.Machine

open Sys2Proof

@[simp] theorem unitWrite_mode (b : Byte) (s : State) : (unitWrite b s).mode = s.mode := by
  simp [unitWrite, writeWord, xfer_closed]

/-- No rule of the handler leaves a test state. -/
theorem handlerTurn_keeps_test {s t : State} (htest : s.mode.isTest = true) (ht : handlerTurn s = .next t) :
    t.mode = s.mode := by
  obtain rfl | ⟨i, hr, rfl⟩ := handlerTurn_body ht
  · rfl
  · rw [handlerRule_eq] at hr
    cases hr
    cases hm : s.mode
    case idle | receiving | transmitting => rw [hm] at htest; cases htest
    all_goals exact (unitWrite_mode _ _).trans hm

/-- No micro-operation of the foreground leaves a test state: a `CLAIM` is enabled in `Idle` only. -/
theorem foregroundTurn_keeps_test {s t : State} (htest : s.mode.isTest = true) (ht : foregroundTurn s = .next t) :
    t.mode = s.mode := by
  obtain rfl | ⟨m, rest, -, hen, he⟩ := foregroundTurn_next ht
  · rfl
  · cases m with
    | w word =>
      simp only [Micro.instr, exec, execW, withBus] at he
      split at he <;> cases he
      · rfl
      · simp [writeWord, xfer_closed]
    | claim p =>
      have hidle : s.mode = .idle := by simpa [microEnabled, State.isIdle] using hen
      rw [hidle] at htest
      cases htest

/-- The host operations that may change `STATE`. -/
abbrev ChangesMode (i : Instr) : Prop := i = .reset ∨ (∃ p, i = .submit p) ∨ (∃ m, i = .enterTestMode m)

theorem accept_keeps_mode {s t : State} {k : Result} (h : accept s k = .next t) (hk : k = .next t → t.mode = s.mode) :
    t.mode = s.mode := by
  obtain ⟨-, rfl⟩ | ⟨-, h⟩ := accept_next h
  · rfl
  · exact hk h

theorem takeMailbox_keeps_mode {s t : State} {r : Option SlotIx → State → Resp}
    (h : takeMailbox s (fun p u => .next (u.respond (r p u))) = .next t) : t.mode = s.mode := by
  unfold takeMailbox at h
  split at h
  · split at h <;> cases h
    rfl
  · cases h; rfl

theorem exec_H_keeps_mode {i : Instr} (hf : i.format = .H) (hi : ¬ ChangesMode i) {s t : State} (h : exec i s = .next t) :
    t.mode = s.mode := by
  cases i
  case reset => exact absurd (.inl rfl) hi
  case submit p => exact absurd (.inr (.inl ⟨p, rfl⟩)) hi
  case enterTestMode m => exact absurd (.inr (.inr ⟨m, rfl⟩)) hi
  case pollReceived => exact accept_keeps_mode h takeMailbox_keeps_mode
  case setFrequency | peek =>
    refine accept_keeps_mode h fun hk => ?_
    split at hk <;> cases hk <;> rfl
  case encodeNibble | decodeNibble | isIdle | liveness | setRegister =>
    exact accept_keeps_mode h fun hk => by cases hk; rfl
  all_goals cases hf

/-- Every host operation waits for an empty queue (45_host_operations.md R220). -/
theorem exec_H_hold {i : Instr} (hf : i.format = .H) {s : State} (hq : s.fgq ≠ []) : exec i s = .next s := by
  cases i
  case encodeNibble | decodeNibble | submit | pollReceived | isIdle | liveness | reset | enterTestMode | setRegister
    | setFrequency | peek => exact accept_hold hq _
  all_goals cases hf

/-- What stands on the command port changes `STATE` only as one of the three operations, accepted. -/
theorem hostTurn_changes_mode {bytes : List Byte} {s t : State} (h : hostTurn bytes s = .next t) (hne : t.mode ≠ s.mode) :
    s.fgq = [] ∧ ∃ r i, decode s.cfg.maxPayload .H bytes = .ok (i, r) ∧ ChangesMode i := by
  obtain ⟨i, r, hd, he⟩ | rfl | ⟨-, rfl⟩ := hostTurn_next h
  · have hf := decode_H_format hd
    refine ⟨of_not_not fun hq => ?_, r, i, hd, of_not_not fun hi => hne (exec_H_keeps_mode hf hi he)⟩
    rw [exec_H_hold hf hq] at he
    cases he
    exact hne rfl
  · exact absurd rfl hne
  · exact absurd rfl hne

theorem turn_leaves_test {inp : Input} {s t : State} (htest : s.mode.isTest = true) (ht : turn inp s = .next t)
    (hne : t.mode ≠ s.mode) : s.fgq = [] ∧ ∃ bytes r i, inp = .host bytes ∧
      decode s.cfg.maxPayload .H bytes = .ok (i, r) ∧ ChangesMode i := by
  cases inp with
  | handler => exact absurd (handlerTurn_keeps_test htest ht) hne
  | foreground => exact absurd (foregroundTurn_keeps_test htest ht) hne
  | host bytes =>
    obtain ⟨hq, r, i, hd, hi⟩ := hostTurn_changes_mode ht hne
    exact ⟨hq, bytes, r, i, rfl, hd, hi⟩
  | trigger | encPort | decPort => cases ht; exact absurd rfl hne

/-- Settles O33: of the turns only the command port's leaves a test state. -/
theorem testStatesAreSticky : Obligations.TestStatesAreSticky := by
  intro s t htest ht hne
  obtain ⟨-, hturn⟩ := step_next ht
  have hleaves := turn_leaves_test (s := s.takeInput.2) (inp := s.takeInput.1) (t := t)
  rw [takeInput_frame] at hleaves hturn
  exact hleaves htest hturn hne

end Sys2Proof.Machine
end

section
/-! A whole transmitted frame (44_transmit_framer_test.md R210), one trigger after another. -/

namespace Sys2Proof.Machine

open Sys2Proof

/-- The words on the bus so far, each with its width. -/
def State.sent (s : State) : List (Nat × Word) := s.trace.map fun x => (x.width, x.out)

theorem State.busLog_sent : ∀ (ws : List Word) (s : State),
    (s.busLog ws).map (fun x => (x.width, x.out)) = ws.map fun w => (16, w)
  | [], _ => rfl
  | w :: ws, s => by rw [State.busLog_cons, List.map_cons, List.map_cons, State.busLog_sent ws]

theorem State.afterBus_sent (s : State) (ws : List Word) : (s.afterBus ws).sent = s.sent ++ ws.map fun w => (16, w) := by
  rw [State.sent, State.afterBus_eq, List.map_append, State.busLog_sent]
  rfl

/-- One trigger more. -/
theorem triggers_succ_last {u : State} : ∀ {n : Nat} {s t : State}, triggers n s = .next t → triggered [] t = .next u →
    triggers (n + 1) s = .next u
  | 0, s, t, h, hu => by
    cases h
    rw [triggers, hu]
    rfl
  | n + 1, s, t, h, hu => by
    rw [triggers] at h ⊢
    cases hv : triggered [] s with
    | next v => rw [hv] at h; exact triggers_succ_last h hu
    | fault f => rw [hv] at h; cases h
    | refused r => rw [hv] at h; cases h

/-- `t` is `s` after the first `n` units of the frame in its staging buffer. -/
structure UnitsSent (s : State) (n : Nat) (t : State) : Prop where
  inv : Inv t
  mode : t.mode = .transmitting
  counter : t.counter.toNat = n
  cfg : t.cfg = s.cfg
  txs : t.txs = s.txs
  sent : t.sent = s.sent ++ ((List.range n).map fun c => unitWriteWord s.cfg (s.txByte c)).map fun w => (16, w)

theorem UnitsSent.txEnd_primed {s t : State} {n : Nat} (h : UnitsSent s n t) (answers : List Word) :
    (t.primed answers).txEnd = s.txEnd := congrArg (txOverhead + wirePayload ·) h.txs

/-- A trigger below the frame end sends the next unit. -/
theorem UnitsSent.emit {s t : State} {n : Nat} (h : UnitsSent s n t) (hn : n < s.txEnd) :
    ∃ u, triggered [] t = .next u ∧ UnitsSent s (n + 1) u := by
  have hc : (t.primed []).counter.toNat < (t.primed []).txEnd := by
    rw [h.txEnd_primed]
    exact h.counter.trans_lt hn
  have he := transmitEmitsOneUnit _ (h.inv.mayInvoke_primed []) h.mode hc
  obtain ⟨hrun, hinv⟩ := triggered_selected h.inv (handlerRule_txEmit h.mode hc) he
  refine ⟨_, hrun, hinv, (State.afterBus_mode _ _).trans h.mode, ?counter, (State.afterBus_cfg _ _).trans h.cfg,
    (State.afterBus_txs _ _).trans h.txs, ?sent⟩
  case counter =>
    exact (toNat_counter_succ (hc.trans (txEnd_lt _))).trans (congrArg (· + 1) h.counter)
  case sent =>
    have hword : (t.primed []).cfg.unitWriteCmd ||| ((t.primed []).txByte (t.primed []).counter.toNat).setWidth 16 =
        unitWriteWord s.cfg (s.txByte n) := by
      rw [txByte_congr (s := s) (t := t.primed []) h.cfg h.txs]
      show unitWriteWord t.cfg (s.txByte t.counter.toNat) = _
      rw [h.cfg, h.counter]
    refine (State.afterBus_sent (t.primed []) _).trans ?_
    show t.sent ++ _ = _
    rw [hword, h.sent, List.range_succ, List.map_append, List.map_append, List.append_assoc]
    rfl

/-- The first `n` units of a frame, one trigger each. -/
theorem triggers_unitsSent {s : State} (h : Inv s) (hm : s.mode = .transmitting) (hc : s.counter = 0#16) :
    ∀ n ≤ s.txEnd, ∃ t, triggers n s = .next t ∧ UnitsSent s n t
  | 0, _ => ⟨s, rfl, h, hm, congrArg BitVec.toNat hc, rfl, rfl, (List.append_nil _).symm⟩
  | n + 1, hn => by
    obtain ⟨t, ht, hsent⟩ := triggers_unitsSent h hm hc n (by omega)
    obtain ⟨u, hu, hsent'⟩ := hsent.emit hn
    exact ⟨u, triggers_succ_last ht hu, hsent'⟩

/-- Settles O59: by induction on the units (`triggers_unitsSent`), and the rule of the frame end after the last of them. -/
theorem transmittedFrameTrace : Obligations.TransmittedFrameTrace := by
  intro s h hm hc
  obtain ⟨t, ht, hsent⟩ := triggers_unitsSent h hm hc s.txEnd (Nat.le_refl _)
  have hend : (t.primed []).txEnd ≤ (t.primed []).counter.toNat := by
    rw [hsent.txEnd_primed]
    exact hsent.counter.ge
  have he := transmitFinishRearmsReceive _ (hsent.inv.mayInvoke_primed []) hsent.mode hend
  obtain ⟨hrun, -⟩ := triggered_selected hsent.inv (handlerRule_txFinish hsent.mode hend) he
  refine ⟨_, triggers_succ_last ht hrun, rfl, rfl, (State.afterBus_txs _ _).trans hsent.txs, ?_⟩
  refine (State.afterBus_sent (t.primed []) _).trans ?_
  show t.sent ++ (t.cfg.seqTxDisable ++ t.cfg.seqRxEnable ++ t.cfg.seqFifoReset).map _ = _
  rw [hsent.sent, hsent.cfg]
  simp only [State.sent, List.map_append, List.append_assoc]

end Sys2Proof.Machine
end

section
/-! The command port (45_host_operations.md sections 1 and 2): each host operation accepted, as a next state. -/

namespace Sys2Proof.Machine

open Sys2Proof

/-- Settles O37: every host operation stands behind `accept`. -/
theorem portNotReadyAcceptsNothing : Obligations.PortNotReadyAcceptsNothing :=
  fun _ _ hf hq => exec_H_hold hf hq

/-! ## Answers -/

/-- Settles O8: on the command port behind `accept`, on a codec port as the input that is taken. -/
theorem codecHostOperationsReturnTableEntries : Obligations.CodecHostOperationsReturnTableEntries :=
  fun _ => ⟨fun hq => ⟨fun _ => accept_ready hq _, fun _ => accept_ready hq _⟩,
    fun _ hu => ⟨fun _ hi => step_cons hu hi, fun _ hi => step_cons hu hi⟩⟩

theorem isIdle_eq_decide (s : State) : s.isIdle = decide (s.mode = .idle) := beq_eq_decide _ _

/-- Settles O44: two operations behind `accept`, their answers by `isIdle_eq_decide`. -/
theorem statusOperationsAnswer : Obligations.StatusOperationsAnswer := by
  intro s hq
  rw [← isIdle_eq_decide]
  exact ⟨accept_ready hq _, accept_ready hq _⟩

/-- Settles O42: one lemma for each value of the flag, behind `accept`. -/
theorem pollReturnsFinishedPacket : Obligations.PollReturnsFinishedPacket :=
  fun _ hq => ⟨fun _ hf hp => exec_pollReceived_raised hq hf hp,
    fun hf => (accept_ready hq _).trans (takeMailbox_lowered hf _)⟩

theorem memRead_rx_inside {s : State} {a : Nat} (h : a < slotBytes s.cfg) (ix : SlotIx) :
    memRead s (.rx ix) a = some ((s.slot ix).read a) := if_pos h

theorem memRead_rx_outside {s : State} {a : Nat} (h : slotBytes s.cfg ≤ a) (ix : SlotIx) : memRead s (.rx ix) a = none :=
  if_neg h.not_gt

/-- Settles O43: the slot is read inside its bytes only (`memRead_rx_inside`, `memRead_rx_outside`). -/
theorem peekReadsSlotByte : Obligations.PeekReadsSlotByte := by
  intro s slot o hq
  refine ⟨fun hin => ?inside, fun hout => ?outside⟩
  all_goals refine (accept_ready hq _).trans ?_
  case inside => rw [memRead_rx_inside hin]; rfl
  case outside => rw [memRead_rx_outside hout]; rfl

/-! ## Queued micro-operations -/

/-- Settles O45: one next state behind `accept`, whatever `STATE` is. -/
theorem resetReturnsToIdle : Obligations.ResetReturnsToIdle := fun _ hq => accept_ready hq _

/-- Settles O46: one next state behind `accept` for each of the four operands. -/
theorem enterTestModeSetsTestState : Obligations.EnterTestModeSetsTestState :=
  fun _ hq => ⟨accept_ready hq _, accept_ready hq _, accept_ready hq _, accept_ready hq _⟩

theorem freqWord_eq (cfg : Config) (v : Word) : freqWord cfg v = cfg.freqCmd ||| (v.extractLsb' 0 12).setWidth 16 := by
  rw [freqWord, v.setWidth_eq_extractLsb' (by decide)]

/-- Settles O47: the span of a frequency is the condition of the model, on numbers. -/
theorem registerOperationsQueueOneWrite : Obligations.RegisterOperationsQueueOneWrite := by
  intro s hq
  refine ⟨fun w => accept_ready hq _, fun v hmin hmax => ?inside, fun v hout => ?outside⟩
  all_goals refine (accept_ready hq _).trans ?_
  case inside => rw [if_pos ⟨hmin, hmax⟩, freqWord_eq]
  case outside => exact if_neg fun ⟨hmin, hmax⟩ => hout.elim hmin.not_gt hmax.not_gt

theorem submitRefused_iff (cfg : Config) (p : Packet) :
    submitRefused cfg p = true ↔ cfg.maxPayload < p.size.toNat ∨ 3 < p.type.toNat := by
  simp [submitRefused]

/-- Settles O38: refused as `submitRefused_iff` says, otherwise one queue for a test state and one for the others. -/
theorem submitQueuesClaim : Obligations.SubmitQueuesClaim := by
  intro s p hq
  have hgood (hsize : p.size.toNat ≤ s.cfg.maxPayload) (htype : p.type.toNat ≤ 3) : ¬ submitRefused s.cfg p = true := by
    rw [submitRefused_iff]; omega
  refine ⟨fun hbad => ?refused, fun hsize htype => ⟨fun hout => ?outside, fun htest => ?test⟩⟩
  all_goals refine (accept_ready hq _).trans ?_
  case refused => exact if_pos ((submitRefused_iff _ _).2 hbad)
  case outside => rw [if_neg (hgood hsize htype), if_neg (by simp [hout]), hq]; rfl
  case test => rw [if_neg (hgood hsize htype), if_pos htest]; rfl

/-! ## An operation code of no row -/

theorem decodeH_unknown {op : Byte}
    (h : op ∉ ([0x01, 0x02, 0x10, 0x11, 0x12, 0x13, 0x14, 0x15, 0x16, 0x17, 0x18] : List Byte)) (mp : Nat)
    (r : List Byte) : decodeH mp op r = .error (.unknownOp op) := by
  have hop : op = BitVec.ofNat 8 op.toNat := by simp
  unfold decodeH
  split
  case h_12 => rfl
  all_goals exact absurd (by rw [hop, ‹op.toNat = _›]; decide) h

/-- What no decoder of format H reads is ignored by a ready port. -/
theorem hostTurn_undecoded {s : State} (hq : s.fgq = []) {bytes : List Byte} {e : DecodeError}
    (h : decode s.cfg.maxPayload .H bytes = .error e) : hostTurn bytes s = .next { s with resp := .nothing } := by
  rw [hostTurn, h]
  exact accept_ready hq _

/-- Settles O48: the decoder answers no operation (`decodeH_unknown`). -/
theorem unknownOpIsIgnored : Obligations.UnknownOpIsIgnored := by
  intro s op r rest hu hq hi hop
  have hdecode : decode s.cfg.maxPayload .H (op :: r) = .error (.unknownOp op) := decodeH_unknown hop _ r
  exact (step_cons hu hi).trans (hostTurn_undecoded (s := { s with inputs := rest }) hq hdecode)

end Sys2Proof.Machine
end

section
/-! The foreground sequencer (45_host_operations.md R221 to R227) and what one step selects. -/

namespace Sys2Proof.Machine

open Sys2Proof

/-! ## The two micro-operations -/

/-- Settles O40: one 16-bit transaction on the idle bus. -/
theorem foregroundWriteSendsOneWord : Obligations.ForegroundWriteSendsOneWord :=
  fun _ w h => withBus_next h (writeWord_idle h w)

theorem exec_claim_idle {s : State} (hm : s.mode = .idle) (p : Packet) :
    exec (.claim p) s = .next (loadStaging p (s.goTo .transmitting 0#16)) := by
  refine if_pos ?_
  rw [isIdle_eq_decide, decide_eq_true hm]

theorem exec_claim_hold {s : State} (hm : s.mode ≠ .idle) (p : Packet) : exec (.claim p) s = .next s := by
  refine if_neg ?_
  rw [isIdle_eq_decide, decide_eq_false hm]
  decide

/-- Settles O39: in `Idle` the packet goes to the staging buffer as `LOAD_STAGING` puts it there (O19). -/
theorem claimAdmitsOnlyWhenIdle : Obligations.ClaimAdmitsOnlyWhenIdle := by
  intro s p h
  refine ⟨fun hm => ?_, fun hm => exec_claim_hold hm p⟩
  obtain ⟨t, hload, -, hsize, htype, hpayload, -⟩ := loadStagingCopiesPacket (s.goTo .transmitting 0#16) p h
  cases hload
  exact ⟨_, exec_claim_idle hm p, rfl, hsize, htype, hpayload⟩

/-! ## The frame in flight -/

/-- What a transmission in progress lives in: `STATE`, `COUNTER` and the staging buffer. -/
abbrev FrameKept (s t : State) : Prop := t.mode = s.mode ∧ t.counter = s.counter ∧ t.txs = s.txs

theorem writeWord_frameKept (w : Word) (s : State) : FrameKept s (writeWord w s) := by
  simp [FrameKept, writeWord, xfer_closed]

theorem execW_frameKept {s t : State} {w : Word} (h : execW w s = .next t) : FrameKept s t := by
  unfold execW withBus at h
  split at h <;> cases h
  · exact ⟨rfl, rfl, rfl⟩
  · exact writeWord_frameKept w s

/-- Outside the test states an accepted `SUBMIT` queues or refuses. -/
theorem execSubmit_frameKept {s t : State} {p : Packet} (htest : s.mode.isTest = false) (h : execSubmit p s = .next t) :
    FrameKept s t := by
  obtain ⟨-, rfl⟩ | ⟨-, h⟩ := accept_next h
  · exact ⟨rfl, rfl, rfl⟩
  · split at h
    · cases h; exact ⟨rfl, rfl, rfl⟩
    · rw [if_neg (by simp [htest])] at h
      cases h; exact ⟨rfl, rfl, rfl⟩

/-- Outside `Idle` the foreground runs no `CLAIM`. -/
theorem foregroundTurn_frameKept {s t : State} (hm : s.mode ≠ .idle) (h : foregroundTurn s = .next t) :
    FrameKept s t := by
  obtain rfl | ⟨m, rest, -, hen, he⟩ := foregroundTurn_next h
  · exact ⟨rfl, rfl, rfl⟩
  · cases m with
    | w word => exact execW_frameKept (s := { s with fgq := rest }) he
    | claim p => exact absurd (by simpa [microEnabled, isIdle_eq_decide] using hen) hm

/-- Settles O41: `SUBMIT` touches them in a test state only, the foreground in `Idle` only. -/
theorem submitLeavesFrameInFlightAlone : Obligations.SubmitLeavesFrameInFlightAlone := by
  intro s hm
  refine ⟨fun p t he => execSubmit_frameKept (by rw [hm]; rfl) he, fun rest t hi ht => ?_⟩
  obtain ⟨hu, -⟩ := step_next ht
  rw [step_cons hu hi] at ht
  exact foregroundTurn_frameKept (s := { s with inputs := rest }) (by simp [hm]) ht

/-! ## What a step selects -/

theorem hostTurn_decoded {s : State} {bytes r : List Byte} {i : Instr}
    (h : decode s.cfg.maxPayload .H bytes = .ok (i, r)) : hostTurn bytes s = exec i s := by
  rw [hostTurn, h]

theorem handlerRule_decoded {s : State} {i : Instr} {r : List Byte}
    (h : decode s.cfg.maxPayload .T [s.handlerKey] = .ok (i, r)) : s.handlerRule = some i := by
  rw [State.handlerRule, h]

theorem handlerTurn_pass {s : State} (h : s.trigPend = false) : handlerTurn s = .next s := by
  simp [handlerTurn, h]

theorem foregroundTurn_empty {s : State} (h : s.fgq = []) : foregroundTurn s = .next s := by
  rw [foregroundTurn, h]

theorem foregroundTurn_enabled {s : State} {m : Micro} {q : List Micro} (hq : s.fgq = m :: q)
    (hen : microEnabled s m = true) : foregroundTurn s = exec m.instr { s with fgq := q } := by
  rw [foregroundTurn, hq]
  exact if_pos hen

theorem foregroundTurn_hold {s : State} {m : Micro} {q : List Micro} (hq : s.fgq = m :: q)
    (hen : microEnabled s m = false) : foregroundTurn s = .next s := by
  rw [foregroundTurn, hq]
  exact if_neg (by simp [hen])

theorem microEnabled_w (s : State) (w : Word) : microEnabled s (.w w) = !s.busy := rfl

theorem microEnabled_claim (s : State) (p : Packet) : microEnabled s (.claim p) = decide (s.mode = .idle) :=
  isIdle_eq_decide s

/-- Settles O56: a step is the turn of the input at the head (`step_cons`), and one lemma says what each turn runs. -/
theorem stepRunsDecodedOperation : Obligations.StepRunsDecodedOperation := by
  intro s rest hu s1
  refine ⟨fun bytes i r hi hd => ?host, fun hi => ⟨fun i r ht hd => ?handler, fun ht => ?noTrigger⟩,
    fun hi => ⟨fun hq => ?empty, fun w q hq hb => ?word, fun p q hq hm => ?claim, fun p q hq hm => ?held⟩,
    fun v hi => step_cons hu hi, fun c hi => step_cons hu hi⟩
  all_goals refine (step_cons hu hi).trans ?_
  case host => exact hostTurn_decoded (s := s1) hd
  case handler => exact handlerTurn_run (s := s1) ht (handlerRule_decoded (s := s1) hd)
  case noTrigger => exact handlerTurn_pass (s := s1) ht
  case empty => exact foregroundTurn_empty (s := s1) hq
  case word => exact foregroundTurn_enabled (s := s1) hq (by simpa [microEnabled_w] using hb)
  case claim => exact foregroundTurn_enabled (s := s1) hq (by simpa [microEnabled_claim] using hm)
  case held => exact foregroundTurn_hold (s := s1) hq (by simpa [microEnabled_claim] using hm)

end Sys2Proof.Machine
end

section
/-! Trigger, invocation and the rights of the two contexts (60_exceptions.md): what a rule of the handler keeps besides the
staging buffer, and what every other turn leaves to the handler. -/

namespace Sys2Proof.Machine

open Sys2Proof

/-! ## What a rule of the handler keeps -/

/-- `t` has the parameters, the queue, the response, `FIRED`, `TRIG_PEND` and the inputs of `s`, and its trace goes on from
that of `s`. -/
structure BodyKeeps (s t : State) : Prop where
  cfg : t.cfg = s.cfg
  fgq : t.fgq = s.fgq
  resp : t.resp = s.resp
  fired : t.fired = s.fired
  trigPend : t.trigPend = s.trigPend
  inputs : t.inputs = s.inputs
  trace : s.trace <+: t.trace

theorem BodyKeeps.refl (s : State) : BodyKeeps s s := ⟨rfl, rfl, rfl, rfl, rfl, rfl, [], List.append_nil _⟩

theorem BodyKeeps.trans {s t u : State} (h : BodyKeeps s t) (h' : BodyKeeps t u) : BodyKeeps s u where
  cfg := h'.cfg.trans h.cfg
  fgq := h'.fgq.trans h.fgq
  resp := h'.resp.trans h.resp
  fired := h'.fired.trans h.fired
  trigPend := h'.trigPend.trans h.trigPend
  inputs := h'.inputs.trans h.inputs
  trace := h.trace.trans h'.trace

theorem xfer_keeps (n : Nat) (out : Word) (s : State) : BodyKeeps s (xfer n out s).2 := by
  rw [xfer_closed]
  exact ⟨s.consumeResponse_cfg, s.consumeResponse_fgq, s.consumeResponse_resp, s.consumeResponse_fired,
    s.consumeResponse_trigPend, s.consumeResponse_inputs, _, rfl⟩

theorem unitRead_keeps (s : State) : BodyKeeps s (unitRead s).2 := xfer_keeps _ _ s

theorem unitWrite_keeps (b : Byte) (s : State) : BodyKeeps s (unitWrite b s) := xfer_keeps _ _ s

theorem seqWords_keeps : ∀ (ws : List Word) (s : State), BodyKeeps s (seqWords ws s)
  | [], s => .refl s
  | w :: ws, s => (xfer_keeps 16 w s).trans (seqWords_keeps ws (writeWord w s))

theorem setSlot_keeps (s : State) (ix : SlotIx) (m : Memory) : BodyKeeps s (s.setSlot ix m) := by
  rw [setSlot_frame]; exact { BodyKeeps.refl s with }

theorem goTo_keeps (s : State) (m : Mode) (n : Word) : BodyKeeps s (s.goTo m n) := { BodyKeeps.refl s with }

theorem setCounter_keeps (s : State) (n : Word) : BodyKeeps s { s with counter := n } :=
  { BodyKeeps.refl s with }

theorem postMailbox_keeps (s : State) : BodyKeeps s (postMailbox s) := by
  rw [postMailbox_frame]; exact { BodyKeeps.refl s with }

theorem rxComplete_keeps (s : State) : BodyKeeps s (rxComplete s) :=
  ((seqWords_keeps _ s).trans (postMailbox_keeps _)).trans (goTo_keeps _ _ _)

theorem rxAdvance_keeps (e : Nat) (s : State) : BodyKeeps s (rxAdvance e s) := by
  unfold rxAdvance
  dsimp only
  split
  · exact (setCounter_keeps s _).trans (rxComplete_keeps _)
  · exact setCounter_keeps s _

/-- The payload rules, whichever byte they make of the unit and wherever they store it. -/
theorem rxPayload_keeps (s : State) (e o : Nat) (b : Byte) :
    BodyKeeps s (rxAdvance e ((unitRead s).2.writeActive o b)) :=
  ((unitRead_keeps s).trans (setSlot_keeps _ _ _)).trans (rxAdvance_keeps e _)

theorem handlerBody_keeps (i : Instr) (s : State) : BodyKeeps s (handlerBody i s) := by
  cases i
  case tIdleStart => exact ((unitRead_keeps s).trans (setSlot_keeps _ _ _)).trans (goTo_keeps _ _ _)
  case tIdleFramingError => exact (unitRead_keeps s).trans (seqWords_keeps _ _)
  case tRxType => exact ((unitRead_keeps s).trans (setSlot_keeps _ _ _)).trans (setCounter_keeps _ _)
  case tRxDataRaw | tRxDataEcc => exact rxPayload_keeps s _ _ _
  case tTxEmit => exact (unitWrite_keeps _ s).trans (setCounter_keeps _ _)
  case tTxFinish =>
    exact (((seqWords_keeps _ s).trans (seqWords_keeps _ _)).trans (seqWords_keeps _ _)).trans (goTo_keeps _ _ _)
  case tTestZero | tTestOne | tTestAlt => exact unitWrite_keeps _ s
  all_goals exact .refl s

/-! ## What an invocation leaves -/

/-- Everything a handler turn can leave when a trigger waits: the state as it was while the bus is held, or the body of the
selected rule run after the entry. -/
theorem handlerTurn_invoked {s t : State} (htrig : s.trigPend = true) (h : handlerTurn s = .next t) :
    (s.busy = true ∧ t = s) ∨ (s.busy = false ∧ ∃ i, t = handlerBody i s.enterHandler) := by
  obtain ⟨hno, -⟩ | ⟨i, hr, he, -⟩ := handlerTurn_next h
  · rw [htrig] at hno; cases hno
  · rw [exec_T_invoke (handlerRule_format hr)] at he
    obtain ⟨-, ⟨hno, -⟩ | ⟨-, hb, rfl⟩ | ⟨-, hb, -, rfl⟩⟩ := invoke_next he
    · rw [htrig] at hno; cases hno
    · exact .inl ⟨hb, rfl⟩
    · exact .inr ⟨hb, i, rfl⟩

/-- With a trigger waiting, a handler turn clears `TRIG_PEND` exactly when it has the bus. -/
theorem handlerTurn_clears_iff {s t : State} (htrig : s.trigPend = true) (h : handlerTurn s = .next t) :
    t.trigPend = false ↔ s.busy = false := by
  obtain ⟨hb, rfl⟩ | ⟨hb, i, rfl⟩ := handlerTurn_invoked htrig h
  · simp [htrig, hb]
  · have hclear : (handlerBody i s.enterHandler).trigPend = false := (handlerBody_keeps i s.enterHandler).trigPend
    simp [hclear, hb]

/-- The rights of the handler (60_exceptions.md section 3): what its turn may not touch is as it was, and the trace goes on. -/
structure HandlerRights (s t : State) : Prop where
  txs : t.txs = s.txs
  fgq : t.fgq = s.fgq
  resp : t.resp = s.resp
  cfg : t.cfg = s.cfg
  trace : s.trace <+: t.trace

theorem handlerTurn_rights {s t : State} (h : handlerTurn s = .next t) : HandlerRights s t := by
  obtain rfl | ⟨i, -, rfl⟩ := handlerTurn_body h
  · exact ⟨rfl, rfl, rfl, rfl, [], List.append_nil _⟩
  · exact { handlerBody_keeps i s.enterHandler with txs := handlerBody_txs i s.enterHandler }

/-! ## What every other turn leaves to the handler -/

/-- The rights of the foreground and the environment (60_exceptions.md section 3): the slots, `ACTIVE` and `MB_PTR` are as they
were, `MB_FLAG` is not raised, a trigger that waits goes on waiting, and the trace goes on. -/
structure ForegroundRights (s t : State) : Prop where
  rx0 : t.rx0 = s.rx0
  rx1 : t.rx1 = s.rx1
  active : t.active = s.active
  mbPtr : t.mbPtr = s.mbPtr
  mbFlag : t.mbFlag = true → s.mbFlag = true
  trigPend : s.trigPend = true → t.trigPend = true
  cfg : t.cfg = s.cfg
  trace : s.trace <+: t.trace

theorem ForegroundRights.refl (s : State) : ForegroundRights s s := ⟨rfl, rfl, rfl, rfl, id, id, rfl, [], List.append_nil _⟩

theorem writeWord_rights (w : Word) (s : State) : ForegroundRights s (writeWord w s) := by
  rw [writeWord, xfer_16]
  exact ⟨s.consumeResponse_rx0, s.consumeResponse_rx1, s.consumeResponse_active, s.consumeResponse_mbPtr,
    s.consumeResponse_mbFlag.symm.trans, s.consumeResponse_trigPend.trans, s.consumeResponse_cfg, _, rfl⟩

theorem exec_micro_rights {m : Micro} {s t : State} (h : exec m.instr s = .next t) : ForegroundRights s t := by
  cases m with
  | w word =>
    replace h : withBus s (.next (writeWord word s)) = .next t := h
    unfold withBus at h
    split at h <;> cases h
    · exact .refl s
    · exact writeWord_rights word s
  | claim p =>
    by_cases hm : s.mode = .idle
    · cases (exec_claim_idle hm p).symm.trans h
      exact { ForegroundRights.refl s with }
    · cases (exec_claim_hold hm p).symm.trans h
      exact .refl s

theorem foregroundTurn_rights {s t : State} (h : foregroundTurn s = .next t) : ForegroundRights s t := by
  obtain rfl | ⟨m, rest, -, -, he⟩ := foregroundTurn_next h
  · exact .refl t
  · exact { exec_micro_rights he with }

theorem HostEffect.rights {s t : State} (h : HostEffect s t) : ForegroundRights s t := by
  cases h with
  | nothing => exact .refl s
  | answers flag fired r hflag => exact { ForegroundRights.refl s with mbFlag := hflag }
  | queues | enters => exact { ForegroundRights.refl s with }

/-- The effect of every input but the handler's turn stays within those rights. -/
theorem turn_rights {inp : Input} {s t : State} (hne : inp ≠ .handler) (h : turn inp s = .next t) : ForegroundRights s t := by
  cases inp with
  | handler => exact absurd rfl hne
  | foreground => exact foregroundTurn_rights h
  | host bytes => exact (hostTurn_effect h).rights
  | trigger => cases h; exact { ForegroundRights.refl s with trigPend := fun _ => rfl }
  | encPort | decPort => cases h; exact { ForegroundRights.refl s with }

/-! ## Two kinds of step -/

@[simp] theorem takeInput_trigPend (s : State) : s.takeInput.2.trigPend = s.trigPend := by rw [takeInput_frame]

@[simp] theorem takeInput_busy (s : State) : s.takeInput.2.busy = s.busy := by rw [takeInput_frame]

theorem step_handler_rights {s t : State} (hi : s.takeInput.1 = .handler) (h : step s = .next t) : HandlerRights s t := by
  obtain ⟨-, hturn⟩ := step_next h
  rw [hi, takeInput_frame] at hturn
  exact { handlerTurn_rights hturn with }

theorem step_other_rights {s t : State} (hi : s.takeInput.1 ≠ .handler) (h : step s = .next t) : ForegroundRights s t := by
  obtain ⟨-, hturn⟩ := step_next h
  rw [takeInput_frame] at hturn
  exact { turn_rights hi hturn with }

/-- Settles O54: a step is an invocation or none, and each kind keeps within its rights. -/
theorem contextsKeepTheirRights : Obligations.ContextsKeepTheirRights := by
  intro s t h
  by_cases hi : s.takeInput.1 = .handler
  · have hr := step_handler_rights hi h
    obtain ⟨more, htrace⟩ := hr.trace
    exact ⟨absurd hi, fun _ => ⟨hr.txs, hr.fgq, hr.resp⟩, hr.cfg, more, htrace.symm⟩
  · have hr := step_other_rights hi h
    obtain ⟨more, htrace⟩ := hr.trace
    exact ⟨fun _ => ⟨hr.rx0, hr.rx1, hr.active, hr.mbPtr, hr.mbFlag⟩, (absurd · hi), hr.cfg, more, htrace.symm⟩

/-- Settles O35: a trigger by evaluation of its step; a handler turn clears `TRIG_PEND` exactly with the bus free, and no other
turn may clear it. -/
theorem triggerArrivalSetsPending : Obligations.TriggerArrivalSetsPending := by
  refine ⟨fun s rest hu hi => step_cons hu hi, fun s t h htrig => ?_⟩
  by_cases hi : s.takeInput.1 = .handler
  · obtain ⟨-, hturn⟩ := step_next h
    rw [hi] at hturn
    rw [and_iff_right hi, ← takeInput_busy s]
    exact handlerTurn_clears_iff ((takeInput_trigPend s).trans htrig) hturn
  · have hwaits : t.trigPend = true := (step_other_rights hi h).trigPend htrig
    simp [hwaits, hi]

end Sys2Proof.Machine
end

section
/-! Progress (60_exceptions.md R254, R258): in a state of the invariant every turn answers a next state, and an invocation
completes. -/

namespace Sys2Proof.Machine

open Sys2Proof

/-! ## The handler's turn -/

theorem Inv.mayInvoke {s : State} (h : Inv s) (htrig : s.trigPend = true) : MayInvoke s :=
  ⟨h.unreachable_none, htrig, h.sound.bus⟩

theorem exists_handlerRule (s : State) : ∃ i, s.handlerRule = some i := ⟨_, handlerRule_eq s⟩

/-- With a trigger waiting, a handler turn runs the body of the selected rule to its end. -/
theorem handlerTurn_completes {s : State} (h : MayInvoke s) {i : Instr} (hr : s.handlerRule = some i) :
    handlerTurn s = .next (handlerBody i s.enterHandler) := by
  have ⟨_, htrig, _⟩ := h
  rw [handlerTurn_run htrig hr, exec_selected h hr]

theorem handlerTurn_answers {s : State} (h : Inv s) : ∃ t, handlerTurn s = .next t := by
  cases htrig : s.trigPend with
  | false => exact ⟨s, handlerTurn_pass htrig⟩
  | true =>
    obtain ⟨i, hr⟩ := exists_handlerRule s
    exact ⟨_, handlerTurn_completes (h.mayInvoke htrig) hr⟩

/-! ## The foreground and the command port -/

theorem withBus_answers (s t : State) : ∃ u, withBus s (.next t) = .next u := by
  unfold withBus
  split <;> exact ⟨_, rfl⟩

theorem exec_micro_answers (m : Micro) (s : State) : ∃ t, exec m.instr s = .next t := by
  cases m with
  | w word => exact withBus_answers s (writeWord word s)
  | claim p =>
    by_cases hm : s.mode = .idle
    · exact ⟨_, exec_claim_idle hm p⟩
    · exact ⟨s, exec_claim_hold hm p⟩

theorem foregroundTurn_answers (s : State) : ∃ t, foregroundTurn s = .next t := by
  cases hq : s.fgq with
  | nil => exact ⟨s, foregroundTurn_empty hq⟩
  | cons m rest =>
    cases hen : microEnabled s m with
    | false => exact ⟨s, foregroundTurn_hold hq hen⟩
    | true =>
      rw [foregroundTurn_enabled hq hen]
      exact exec_micro_answers m _

/-- An acceptance answers if the operation does once it is accepted. -/
theorem accept_answers {s : State} {k : Result} (hk : ∃ t, k = .next t) : ∃ t, accept s k = .next t := by
  unfold accept
  split
  · exact hk
  · exact ⟨s, rfl⟩

/-- `TAKE` faults only on a raised flag without a pointer. -/
theorem takeMailbox_answers {s : State} (h : MailboxSound s) (r : Option SlotIx → State → Resp) :
    ∃ t, takeMailbox s (fun p u => .next (u.respond (r p u))) = .next t := by
  obtain ⟨-, hptr⟩ := h
  cases hf : s.mbFlag with
  | false => exact ⟨_, takeMailbox_lowered hf _⟩
  | true =>
    obtain ⟨p, hp⟩ := Option.ne_none_iff_exists'.mp (hptr hf)
    exact ⟨_, takeMailbox_raised hf hp _⟩

/-- No host operation faults or is refused while the mailbox is sound. -/
theorem exec_H_answers {i : Instr} (hf : i.format = .H) {s : State} (h : MailboxSound s) : ∃ t, exec i s = .next t := by
  cases i
  case encodeNibble | decodeNibble | isIdle | liveness | reset | setRegister => exact accept_answers ⟨_, rfl⟩
  case pollReceived => exact accept_answers (takeMailbox_answers h _)
  case submit =>
    refine accept_answers ?_
    split
    · exact ⟨_, rfl⟩
    · split <;> exact ⟨_, rfl⟩
  case enterTestMode | setFrequency | peek =>
    refine accept_answers ?_
    split <;> exact ⟨_, rfl⟩
  all_goals cases hf

theorem hostTurn_answers {s : State} (h : MailboxSound s) (bytes : List Byte) : ∃ t, hostTurn bytes s = .next t := by
  cases hd : decode s.cfg.maxPayload .H bytes with
  | ok a =>
    obtain ⟨i, r⟩ := a
    rw [hostTurn_decoded hd]
    exact exec_H_answers (decode_H_format hd) h
  | error e =>
    rw [hostTurn, hd]
    exact accept_answers ⟨_, rfl⟩

/-! ## The two statements -/

theorem turn_answers {s : State} (h : Inv s) (inp : Input) : ∃ t, turn inp s = .next t := by
  cases inp with
  | handler => exact handlerTurn_answers h
  | foreground => exact foregroundTurn_answers s
  | host bytes => exact hostTurn_answers h.sound.mailbox bytes
  | trigger | encPort | decPort => exact ⟨_, rfl⟩

/-- Settles O52: the invariant rules the configurations of 93 U3 out, and each kind of turn answers. -/
theorem invariantStatesNeverFault : Obligations.InvariantStatesNeverFault := by
  intro s h
  rw [step_turn h.unreachable_none]
  exact turn_answers h.takeInput _

/-- Settles O36: the selected rule runs to its end after the entry, and no body touches what the entry wrote. -/
theorem invocationClearsPendingAndSetsFired : Obligations.InvocationClearsPendingAndSetsFired := by
  intro s rest h htrig hi
  have hinvoke : MayInvoke { s with inputs := rest } := Inv.mayInvoke (s := { s with inputs := rest }) h htrig
  obtain ⟨i, hr⟩ := exists_handlerRule s
  have hk := handlerBody_keeps i (State.enterHandler { s with inputs := rest })
  exact ⟨i, handlerBody i (State.enterHandler { s with inputs := rest }), hr,
    (step_cons h.unreachable_none hi).trans (handlerTurn_completes hinvoke hr), exec_selected hinvoke hr,
    hk.trigPend, hk.fired, hk.inputs, hk.fgq, handlerBody_txs i _, hk.resp⟩

end Sys2Proof.Machine
end

section
/-! Power-on reset (70_reset_and_hazards.md R280): the bytes it leaves in the receive slots and the staging buffer, whatever
the parameters are. -/

namespace Sys2Proof.Machine

open Sys2Proof

theorem memRead_txs_inside {s : State} {a : Nat} (h : a < slotBytes s.cfg) : memRead s .txs a = some (s.txs.read a) :=
  if_pos h

theorem resetWith_slot (cfg : Config) (ix : SlotIx) : (State.resetWith cfg).slot ix = [] := by
  cases ix <;> rfl

theorem memRead_rx_resetWith {cfg : Config} {a : Nat} (h : a < slotBytes cfg) (ix : SlotIx) :
    memRead (State.resetWith cfg) (.rx ix) a = some 0#8 := by
  rw [memRead_rx_inside h, resetWith_slot, Memory.read_nil]

theorem memRead_txs_resetWith {cfg : Config} {a : Nat} (h : a < slotBytes cfg) :
    memRead (State.resetWith cfg) .txs a = some 0#8 :=
  memRead_txs_inside h

/-- Settles O49: the registers are the fields `State.resetWith` writes, the bytes are read from empty spaces, and the two
tables are hard-wired, so they hold their values in every state. -/
theorem powerOnResetState : Obligations.PowerOnResetState := by
  refine ⟨rfl, rfl, rfl, rfl, rfl, rfl, rfl, rfl, rfl, rfl, rfl, ?bytes, memRead_encTab _, memRead_decTab _⟩
  case bytes => exact fun _ h => ⟨memRead_rx_resetWith h _, memRead_rx_resetWith h _, memRead_txs_resetWith h⟩

end Sys2Proof.Machine
end

section
/-! The configurations no rule reaches (93_implementation_defined.md U3): a step from one of them faults. -/

namespace Sys2Proof.Machine

open Sys2Proof

/-- Which fault it is does not matter here: every configuration of 93 U3 is caught before the input is taken. -/
theorem step_faults {s : State} (h : s.unreachable ≠ none) : ∃ f, step s = .fault f := by
  obtain ⟨f, hf⟩ := Option.ne_none_iff_exists'.mp h
  exact ⟨f, step_unreachable hf⟩

/-- Settles O53: a state with no fault to raise is in none of the configurations (`unreachable_none_iff`). The last clause is
narrower than the model's own, which already faults at the frame end (log entry 12). -/
theorem unreachableConfigurationsFault : Obligations.UnreachableConfigurationsFault := by
  intro s h
  refine step_faults fun hu => ?_
  obtain ⟨hcounter, hsize, houtside, hflag, hptr, ⟨hrx0, hrx1, htxs⟩, hend⟩ := (unreachable_none_iff s).1 hu
  rcases h with h | h | h | h | h | h | h | h | ⟨hm, h2, hpast⟩
  · exact hcounter h
  · exact hsize h
  · exact houtside h
  · exact hflag h
  · exact hptr h
  · exact hrx0.not_gt h
  · exact hrx1.not_gt h
  · exact htxs.not_gt h
  · exact hend ⟨hm, h2, hpast.le⟩

end Sys2Proof.Machine
end
